-- ==== Sys2Proof/Word.lean ====
section
/-! DEFINITION. The word types of the core and the widths of its operand fields (00_scope.md R6, R8;
30_encoding.md R61). -/

namespace Sys2Proof

/-- An 8-bit register or memory cell (R6 REG_WIDTH). -/
abbrev Byte := BitVec 8

/-- A 16-bit quantity: I, PC, a stack slot, an instruction word (R6 I_WIDTH, PC_WIDTH, STACK_SLOT_WIDTH). -/
abbrev Word := BitVec 16

/-- The 12-bit operand `nnn` (R61). -/
abbrev Addr := BitVec 12

/-- The 4-bit operand `n`, and a nibble of the instruction word (R61). -/
abbrev Nibble := BitVec 4

/-- A general-register index: every value of `x` and of `y` is valid (R63). -/
abbrev Reg := Fin 16

/-- A key index (R19). -/
abbrev Key := Fin 16

/-- The framebuffer's 2048 one-bit cells: bit `c` is cell `c = y*64 + x` (10_state.md R10, R25). -/
abbrev Frame := BitVec 2048

end Sys2Proof
end

