-- ==== Sys2Proof/Config.lean ====
section
/-! DEFINITION. What is fixed for the machine: the four open parameters of 00_scope.md R7, the constants of R6,
and the two free values (the inputs `tick` and `rnd` of a step, 10_state.md R30). -/

namespace Sys2Proof

/-- The register that SHR and SHL read (R7 SHIFT_SOURCE). -/
inductive ShiftSource where
  | vx
  | vy
  deriving DecidableEq, Repr

/-- What SYS does (R7 SYS_POLICY). -/
inductive SysPolicy where
  | nop
  | fault
  deriving DecidableEq, Repr

/-- The four open parameters of R7. They ride in `State` as one field that nothing writes, so that a statement about
every state holds for every value of them (assumption 1). -/
structure Config where
  shiftSource   : ShiftSource
  ldstIncrement : Bool
  sysPolicy     : SysPolicy
  strictXY0     : Bool
  deriving DecidableEq, Repr

/-- The default values of R7. DESIGN CHOICE of the spec (D6, D8, D9, D10), assumption 1. -/
def Config.default : Config where
  shiftSource   := .vx
  ldstIncrement := false
  sysPolicy     := .nop
  strictXY0     := false

/-- The free value of the input `tick` at the n-th core step whose inputs nothing has fixed: a draw under no law
(40_step_loop.md R88; 93_implementation_defined.md U7). Assumption 2. -/
opaque Config.freeTick : Nat → Bool

/-- The free value of the input `rnd` at the n-th core step whose inputs nothing has fixed: a draw under no law
(41_arithmetic.md R114; 93_implementation_defined.md U6). Assumption 2. -/
opaque Config.freeRnd : Nat → Byte

/-- R6 MEM_SIZE. -/
def memSize : Nat := 4096

/-- R6 STACK_DEPTH. -/
def stackDepth : Nat := 16

/-- R6 FONT_BASE. -/
def fontBase : Nat := 0x050

/-- R6 GLYPH_BYTES. -/
def glyphBytes : Nat := 5

/-- R6 PROGRAM_ORIGIN. -/
def programOrigin : Nat := 0x200

/-- R6 MAX_IMAGE = MEM_SIZE - PROGRAM_ORIGIN. -/
def maxImage : Nat := 3584

/-- The highest address an instruction is fetched from (20_memory.md R42). -/
def lastFetch : Nat := 0xFFE

/-- R6 FB_W. -/
def fbWidth : Nat := 64

/-- R6 FB_H. -/
def fbHeight : Nat := 32

/-- R6 SPRITE_WIDTH. -/
def spriteWidth : Nat := 8

end Sys2Proof
end

