-- ==== Sys2Proof/Syntax.lean ====
section
/-! DEFINITION. The 35 instructions of spec/opcode_table.json (30_encoding.md R75), in the table's order. -/

namespace Sys2Proof

/-- One constructor per row of the opcode table. A constructor carries exactly the operand fields of the descriptor
that `Decode` of R70 gives. -/
inductive Instr where
  /-- 0nnn, R121. -/
  | sys (nnn : Addr)
  /-- 00E0, R141. -/
  | cls
  /-- 00EE, R124. -/
  | ret
  /-- 1nnn, R122. -/
  | jp (nnn : Addr)
  /-- 2nnn, R123. -/
  | call (nnn : Addr)
  /-- 3xnn, R126. -/
  | seImm (x : Reg) (nn : Byte)
  /-- 4xnn, R127. -/
  | sneImm (x : Reg) (nn : Byte)
  /-- 5xy0, R128. -/
  | seReg (x y : Reg)
  /-- 6xnn, R101. -/
  | ldImm (x : Reg) (nn : Byte)
  /-- 7xnn, R102. -/
  | addImm (x : Reg) (nn : Byte)
  /-- 8xy0, R103. -/
  | ldReg (x y : Reg)
  /-- 8xy1, R104. -/
  | orReg (x y : Reg)
  /-- 8xy2, R105. -/
  | andReg (x y : Reg)
  /-- 8xy3, R106. -/
  | xorReg (x y : Reg)
  /-- 8xy4, R107. -/
  | addReg (x y : Reg)
  /-- 8xy5, R108. -/
  | sub (x y : Reg)
  /-- 8xy6, R109. -/
  | shr (x y : Reg)
  /-- 8xy7, R110. -/
  | subn (x y : Reg)
  /-- 8xyE, R111. -/
  | shl (x y : Reg)
  /-- 9xy0, R129. -/
  | sneReg (x y : Reg)
  /-- Annn, R161. -/
  | ldI (nnn : Addr)
  /-- Bnnn, R125. -/
  | jpV0 (nnn : Addr)
  /-- Cxnn, R114. -/
  | rnd (x : Reg) (nn : Byte)
  /-- Dxyn, R142. -/
  | drw (x y : Reg) (n : Nibble)
  /-- Ex9E, R151. -/
  | skp (x : Reg)
  /-- ExA1, R152. -/
  | sknp (x : Reg)
  /-- Fx07, R154. -/
  | ldVxDT (x : Reg)
  /-- Fx0A, R153. -/
  | ldVxK (x : Reg)
  /-- Fx15, R155. -/
  | ldDTVx (x : Reg)
  /-- Fx18, R156. -/
  | ldSTVx (x : Reg)
  /-- Fx1E, R162. -/
  | addI (x : Reg)
  /-- Fx29, R163. -/
  | ldF (x : Reg)
  /-- Fx33, R164. -/
  | ldB (x : Reg)
  /-- Fx55, R165. -/
  | ldMemVx (x : Reg)
  /-- Fx65, R166. -/
  | ldVxMem (x : Reg)
  deriving DecidableEq, Repr

end Sys2Proof
end

