-- ==== Sys2Proof/Decode.lean ====
section
/-! DEFINITION. The decoder of 30_encoding.md R60 to R70, total on every word and on every byte list, rejecting by
name; then the encoder, written from the table of R75. -/

namespace Sys2Proof

/-- Why the decoder gives no instruction. -/
inductive Reject where
  /-- No family or sub-case matches the word (R71). -/
  | unknownOpcode (w : Word)
  /-- Fewer than two bytes: no instruction word (R60). -/
  | truncated
  deriving DecidableEq, Repr

/-- `t`, bits 15:12, the family selector (R61). -/
def fieldT (w : Word) : Nibble := w.extractLsb' 12 4

/-- `x`, bits 11:8, a register index (R61). -/
def fieldX (w : Word) : Reg := (w.extractLsb' 8 4).toFin

/-- `y`, bits 7:4, a register index (R61). -/
def fieldY (w : Word) : Reg := (w.extractLsb' 4 4).toFin

/-- `n`, bits 3:0 (R61). -/
def fieldN (w : Word) : Nibble := w.extractLsb' 0 4

/-- `nn`, bits 7:0 (R61). -/
def fieldNN (w : Word) : Byte := w.extractLsb' 0 8

/-- `nnn`, bits 11:0 (R61). -/
def fieldNNN (w : Word) : Addr := w.extractLsb' 0 12

/-- Family 0, dispatched on the full word (R65). -/
def decodeFamily0 (w : Word) : Except Reject Instr :=
  if w = 0x00E0#16 then .ok .cls
  else if w = 0x00EE#16 then .ok .ret
  else .ok (.sys (fieldNNN w))

/-- Families 5 and 9: the low nibble is ignored, or required to be 0 under STRICT_XY0 (R69). -/
def decodeXY0 (strict : Bool) (w : Word) (i : Reg → Reg → Instr) : Except Reject Instr :=
  if strict && fieldN w ≠ 0#4 then .error (.unknownOpcode w) else .ok (i (fieldX w) (fieldY w))

/-- Family 8, dispatched on `n` (R66). -/
def decodeFamily8 (w : Word) : Except Reject Instr :=
  match (fieldN w).toNat with
  | 0x0 => .ok (.ldReg (fieldX w) (fieldY w))
  | 0x1 => .ok (.orReg (fieldX w) (fieldY w))
  | 0x2 => .ok (.andReg (fieldX w) (fieldY w))
  | 0x3 => .ok (.xorReg (fieldX w) (fieldY w))
  | 0x4 => .ok (.addReg (fieldX w) (fieldY w))
  | 0x5 => .ok (.sub (fieldX w) (fieldY w))
  | 0x6 => .ok (.shr (fieldX w) (fieldY w))
  | 0x7 => .ok (.subn (fieldX w) (fieldY w))
  | 0xE => .ok (.shl (fieldX w) (fieldY w))
  | _   => .error (.unknownOpcode w)

/-- Family E, dispatched on `nn` (R67). -/
def decodeFamilyE (w : Word) : Except Reject Instr :=
  match (fieldNN w).toNat with
  | 0x9E => .ok (.skp (fieldX w))
  | 0xA1 => .ok (.sknp (fieldX w))
  | _    => .error (.unknownOpcode w)

/-- Family F, dispatched on `nn` (R68). -/
def decodeFamilyF (w : Word) : Except Reject Instr :=
  match (fieldNN w).toNat with
  | 0x07 => .ok (.ldVxDT (fieldX w))
  | 0x0A => .ok (.ldVxK (fieldX w))
  | 0x15 => .ok (.ldDTVx (fieldX w))
  | 0x18 => .ok (.ldSTVx (fieldX w))
  | 0x1E => .ok (.addI (fieldX w))
  | 0x29 => .ok (.ldF (fieldX w))
  | 0x33 => .ok (.ldB (fieldX w))
  | 0x55 => .ok (.ldMemVx (fieldX w))
  | 0x65 => .ok (.ldVxMem (fieldX w))
  | _    => .error (.unknownOpcode w)

/-- `Decode(w)` of R70. `strict` is the parameter STRICT_XY0. `t` has 16 values, so the last arm is family F alone. -/
def decodeWord (strict : Bool) (w : Word) : Except Reject Instr :=
  match (fieldT w).toNat with
  | 0x0 => decodeFamily0 w
  | 0x1 => .ok (.jp (fieldNNN w))
  | 0x2 => .ok (.call (fieldNNN w))
  | 0x3 => .ok (.seImm (fieldX w) (fieldNN w))
  | 0x4 => .ok (.sneImm (fieldX w) (fieldNN w))
  | 0x5 => decodeXY0 strict w .seReg
  | 0x6 => .ok (.ldImm (fieldX w) (fieldNN w))
  | 0x7 => .ok (.addImm (fieldX w) (fieldNN w))
  | 0x8 => decodeFamily8 w
  | 0x9 => decodeXY0 strict w .sneReg
  | 0xA => .ok (.ldI (fieldNNN w))
  | 0xB => .ok (.jpV0 (fieldNNN w))
  | 0xC => .ok (.rnd (fieldX w) (fieldNN w))
  | 0xD => .ok (.drw (fieldX w) (fieldY w) (fieldN w))
  | 0xE => decodeFamilyE w
  | _   => decodeFamilyF w

/-- The instruction word assembled big-endian: the byte at the lower address is bits 15:8 (20_memory.md R44). -/
def wordOfBytes (hi lo : Byte) : Word := hi ++ lo

/-- The two bytes of a word, the one at the lower address first (R44). -/
def bytesOfWord (w : Word) : List Byte := [w.extractLsb' 8 8, w.extractLsb' 0 8]

/-- The first instruction of a byte list, and the bytes after it. -/
def decodeBytes (strict : Bool) : List Byte → Except Reject (Instr × List Byte)
  | hi :: lo :: rest =>
    match decodeWord strict (wordOfBytes hi lo) with
    | .ok i => .ok (i, rest)
    | .error e => .error e
  | _ => .error .truncated

/-- Format A: family and address (R62). -/
def wordA (t : Nibble) (nnn : Addr) : Word := t ++ nnn

/-- Format XK, and format X with a fixed `nn`: family, register, byte (R62). -/
def wordXK (t : Nibble) (x : Reg) (nn : Byte) : Word := t ++ (BitVec.ofFin x : Nibble) ++ nn

/-- Formats XY and XYN: family, two registers, nibble (R62). -/
def wordXYN (t : Nibble) (x y : Reg) (n : Nibble) : Word :=
  t ++ (BitVec.ofFin x : Nibble) ++ (BitVec.ofFin y : Nibble) ++ n

/-- The word of a well-formed instruction, from the pattern column of R75. An ignored low nibble (5xyN, 9xyN) is
written 0, as the table's pattern has it. -/
def encode : Instr → Word
  | .sys nnn     => wordA 0x0 nnn
  | .cls         => 0x00E0
  | .ret         => 0x00EE
  | .jp nnn      => wordA 0x1 nnn
  | .call nnn    => wordA 0x2 nnn
  | .seImm x nn  => wordXK 0x3 x nn
  | .sneImm x nn => wordXK 0x4 x nn
  | .seReg x y   => wordXYN 0x5 x y 0x0
  | .ldImm x nn  => wordXK 0x6 x nn
  | .addImm x nn => wordXK 0x7 x nn
  | .ldReg x y   => wordXYN 0x8 x y 0x0
  | .orReg x y   => wordXYN 0x8 x y 0x1
  | .andReg x y  => wordXYN 0x8 x y 0x2
  | .xorReg x y  => wordXYN 0x8 x y 0x3
  | .addReg x y  => wordXYN 0x8 x y 0x4
  | .sub x y     => wordXYN 0x8 x y 0x5
  | .shr x y     => wordXYN 0x8 x y 0x6
  | .subn x y    => wordXYN 0x8 x y 0x7
  | .shl x y     => wordXYN 0x8 x y 0xE
  | .sneReg x y  => wordXYN 0x9 x y 0x0
  | .ldI nnn     => wordA 0xA nnn
  | .jpV0 nnn    => wordA 0xB nnn
  | .rnd x nn    => wordXK 0xC x nn
  | .drw x y n   => wordXYN 0xD x y n
  | .skp x       => wordXK 0xE x 0x9E
  | .sknp x      => wordXK 0xE x 0xA1
  | .ldVxDT x    => wordXK 0xF x 0x07
  | .ldVxK x     => wordXK 0xF x 0x0A
  | .ldDTVx x    => wordXK 0xF x 0x15
  | .ldSTVx x    => wordXK 0xF x 0x18
  | .addI x      => wordXK 0xF x 0x1E
  | .ldF x       => wordXK 0xF x 0x29
  | .ldB x       => wordXK 0xF x 0x33
  | .ldMemVx x   => wordXK 0xF x 0x55
  | .ldVxMem x   => wordXK 0xF x 0x65

/-- The bytes of an instruction as memory holds them. -/
def encodeBytes (i : Instr) : List Byte := bytesOfWord (encode i)

/-- An instruction word given as a number and its bit count: bits at and above `nbits` are 0, and an instruction has
16 bits (R60). -/
def tableWord (nbits w : Nat) : Word := BitVec.ofNat 16 (w % 2 ^ nbits)

/-- What the decoder reads from the word `w` of the opcode table, under the default parameters. -/
def decodeTableWord (nbits w : Nat) : Option Instr :=
  match decodeBytes Config.default.strictXY0 (bytesOfWord (tableWord nbits w)) with
  | .ok (i, _) => some i
  | .error _ => none

end Sys2Proof
end

