-- ==== Sys2Proof/Machine/State.lean ====
section
/-! DEFINITION. The state of the machine (10_state.md R10 to R33), the reasons a step can stop, and the state after
reset (R29). -/

namespace Sys2Proof.Machine

/-- RUNSTATE (R21). -/
inductive RunState where
  | idle
  | running
  | stopped
  | faulted
  deriving DecidableEq, Repr

/-- The four fatal conditions (60_exceptions.md R180). -/
inductive FatalCondition where
  | unknownOpcode
  | stackOverflow
  | stackUnderflow
  | runaway
  deriving DecidableEq, Repr

/-- The FAULT record (R22). `opcode` is absent for Runaway; `lastPc` is present for Runaway alone. -/
structure FaultRecord where
  cause   : FatalCondition
  opcode  : Option Word
  address : Word
  lastPc  : Option Word
  deriving DecidableEq, Repr

/-- One move at a step boundary (20_memory.md R50; 00_scope.md R5). Which agent moves next, and with which inputs, is
plain data in the state: assumption 3. -/
inductive Move where
  /-- The scheduler invokes one core step with these inputs (40_step_loop.md R80). -/
  | invoke (tick : Bool) (rnd : Byte)
  /-- The input bridge sets one key flag (R19). -/
  | setKey (k : Key) (pressed : Bool)
  /-- The host clears RUNFLAG (70_reset_and_hazards.md R214). -/
  | stop
  /-- The host performs Reset (R210). -/
  | reset
  /-- The host performs Load (R212). -/
  | load (image : List Byte)
  deriving DecidableEq, Repr

/-- MEM as (address, byte) pairs in canonical form: see `Memory.wf` in Machine/Memory.lean. -/
abbrev Memory := List Host.Cell

/-- Every piece of state the spec gives the machine (R10), its three outputs (R31 to R33), the random input of the step
in progress (R30), and the model's own fields: the configuration, the queued moves and the counter of free draws. -/
structure State where
  /-- V[0..15]; VF is V[15] (R11, R12). -/
  v         : Vector Byte 16
  /-- The index register I (R13). -/
  i         : Word
  /-- PC (R14). -/
  pc        : Word
  /-- SP, the stack's depth, 0..16 (R15). -/
  sp        : Fin 17
  /-- STACK[0..15] (R16). -/
  stack     : Vector Word 16
  /-- The delay timer DT (R17). -/
  dt        : Byte
  /-- The sound timer ST (R18). -/
  st        : Byte
  /-- KEY[0..15], true when pressed (R19). -/
  key       : Vector Bool 16
  /-- MEM[0..4095] (R20). -/
  mem       : Memory
  /-- FB[0..2047] (R25). -/
  fb        : Frame
  /-- RUNSTATE (R21). -/
  runState  : RunState
  /-- FAULT, or none (R22). -/
  fault     : Option FaultRecord
  /-- LPC, the last valid PC (R23). -/
  lpc       : Word
  /-- RUNFLAG (R24). -/
  runFlag   : Bool
  /-- Output REDRAW (R31). -/
  redraw    : Bool
  /-- Output SND (R32). -/
  snd       : Bool
  /-- Output DLY (R33). -/
  dly       : Bool
  /-- The input `rnd` of the step in progress (R30), sampled before the body runs. -/
  rndIn     : Byte
  /-- The open parameters (00_scope.md R7); nothing writes them. The model's own field, assumption 1. -/
  cfg       : Config
  /-- The moves still queued, the next one first. The model's own field, assumption 3. -/
  agenda    : List Move
  /-- How many core steps have taken free inputs. The model's own field, assumption 2. -/
  drawCount : Nat
  deriving DecidableEq, Repr

/-- Why the machine has no next state. -/
inductive Fault where
  /-- A core step is invoked while RUNSTATE is not RUNNING: the core has no step (R81; U10 `stuck`). Raised by
  `coreStep` alone. Safe: the model stops where the hardware stays at rest. -/
  | coreAtRest (r : RunState)
  deriving DecidableEq, Repr

/-- Why an instruction has no meaning. -/
inductive Refusal where
  /-- Raised by an arm of `exec` whose instruction is not modelled yet; no arm raises it now. Safe. -/
  | notModelled (mnemonic : String)
  deriving DecidableEq, Repr

/-- The state after Reset: the "after Reset" column of R29. RUNFLAG, which Reset does not touch, is assumption 4; the
values of `rndIn`, `cfg`, `agenda` and `drawCount` are the model's (assumptions 1, 2, 3). -/
def State.reset : State where
  v         := Vector.replicate 16 0
  i         := 0
  pc        := 0
  sp        := 0
  stack     := Vector.replicate 16 0
  dt        := 0
  st        := 0
  key       := Vector.replicate 16 false
  mem       := []
  fb        := 0
  runState  := .idle
  fault     := none
  lpc       := 0
  runFlag   := false
  redraw    := false
  snd       := false
  dly       := false
  rndIn     := 0
  cfg       := Config.default
  agenda    := []
  drawCount := 0

end Sys2Proof.Machine
end

