-- ==== Sys2Proof/Machine/Ops.lean ====
section
/-! DEFINITION. The named operations over registers, memory, stack, framebuffer and timers that the meanings call
(00_scope.md R9), and fault entry (60_exceptions.md R190). There is no operation that returns from a fatal condition:
the spec gives none (R191). -/

namespace Sys2Proof.Machine

/-- What a meaning answers. -/
abbrev Result := Host.Outcome State Fault Refusal

/-- The index of VF (10_state.md R12). -/
def vf : Reg := 15

/-- `V[x]` (R9, R11). -/
def State.reg (s : State) (x : Reg) : Byte := s.v[x.val]

/-- `V[x] <- b` (R9, R11). -/
def State.setReg (s : State) (x : Reg) (b : Byte) : State := { s with v := s.v.set x.val b }

/-- `I <- w`. -/
def State.setI (s : State) (w : Word) : State := { s with i := w }

/-- `PC <- w`. No target is checked when it is written (42_control_flow.md R120). -/
def State.setPC (s : State) (w : Word) : State := { s with pc := w }

/-- `DT <- b`. -/
def State.setDT (s : State) (b : Byte) : State := { s with dt := b }

/-- `ST <- b`. -/
def State.setST (s : State) (b : Byte) : State := { s with st := b }

/-- `FB <- f`, with the redraw flag raised (43_display.md R143). -/
def State.draw (s : State) (f : Frame) : State := { s with fb := f, redraw := true }

/-- `MemRead(addr, 1)`: the byte at the masked address (20_memory.md R41). -/
def State.memRead (s : State) (addr : Nat) : Byte := s.mem.read (addr % memSize)

/-- `MemWrite(addr, 1, b)`: a store to the masked address (20_memory.md R41). -/
def State.memWrite (s : State) (addr : Nat) (b : Byte) : State := { s with mem := s.mem.write (addr % memSize) b }

/-- `Fetch(a)`, big-endian (20_memory.md R44). -/
def State.fetch (s : State) (a : Word) : Word := wordOfBytes (s.memRead a.toNat) (s.memRead (a.toNat + 1))

/-- `PC <- (PC + 2) mod 65536` when the condition holds (R126). -/
def State.skipIf (s : State) (c : Bool) : State := if c then s.setPC (s.pc + 2) else s

/-- The address the executing instruction was fetched from: during the body PC holds it plus 2 (10_state.md R14). -/
def State.instrAddr (s : State) : Word := s.pc - 2

/-- Fault entry, the one operation that takes a fatal condition (R190): the record is written, RUNSTATE becomes
FAULTED, REDRAW is driven to 0, and nothing else changes. -/
def State.raise (s : State) (cause : FatalCondition) (opcode : Option Word) (address : Word) (lastPc : Option Word) :
    State :=
  { s with fault := some ⟨cause, opcode, address, lastPc⟩, runState := .faulted, redraw := false }

/-- A fatal condition raised by the body of the instruction whose word is `w` (R180: opcode = w, address = a). -/
def State.raiseBody (s : State) (cause : FatalCondition) (w : Word) : State :=
  s.raise cause (some w) s.instrAddr none

/-- The numeric code of a fatal condition (R180). -/
def FatalCondition.code : FatalCondition → Nat
  | .unknownOpcode  => 1
  | .stackOverflow  => 2
  | .stackUnderflow => 3
  | .runaway        => 4

/-- `STACK[SP] <- PC; SP <- SP + 1`, or none when SP = 16 (R123). -/
def State.push? (s : State) : Option State :=
  if h : s.sp.val < stackDepth then
    some { s with stack := s.stack.set s.sp.val s.pc h, sp := ⟨s.sp.val + 1, Nat.succ_lt_succ h⟩ }
  else none

/-- `SP <- SP - 1; PC <- STACK[SP]`, or none when SP = 0 (R124). -/
def State.pop? (s : State) : Option State :=
  if h : 0 < s.sp.val then
    some { s with
      sp := ⟨s.sp.val - 1, by omega⟩
      pc := s.stack[s.sp.val - 1]'(by omega) }
  else none

/-- Cell `c` of a framebuffer (10_state.md R25). -/
def cell (f : Frame) (c : Nat) : Bool := f.getLsbD c

/-- `FB[c] <- FB[c] ^ 1`. -/
def flipCell (f : Frame) (c : Nat) : Frame := f ^^^ BitVec.twoPow 2048 c

/-- One timer at the timer gate: `if tick then if t > 0 then t <- t - 1` (40_step_loop.md R89). A timer at 0 stays 0
whatever `tick` is. -/
def tickTimer (tick : Bool) (t : Byte) : Byte := if t = 0 then 0 else if tick then t - 1 else t

/-- S7, the timer gate: both timers, in the same step (R89). -/
def State.timerGate (s : State) (tick : Bool) : State :=
  { s with dt := tickTimer tick s.dt, st := tickTimer tick s.st }

/-- S8 for the two levels: SND and DLY (R90, R32, R33). -/
def State.driveLevels (s : State) : State := { s with snd := s.st ≠ 0, dly := s.dt ≠ 0 }

/-- KEY[k] (R19). -/
def State.keyDown (s : State) (k : Key) : Bool := s.key[k.val]

/-- The lowest pressed key, scanned in ascending index order (44_keypad_timers.md R153). -/
def State.firstKey (s : State) : Option Key := (List.finRange 16).find? fun k => s.keyDown k

end Sys2Proof.Machine
end

