-- ==== Sys2Proof/Machine/Agents.lean ====
section
/-! DEFINITION. What the other agents do to the core and read from it: the input bridge's key writes, the host's Reset,
Load and Stop (70_reset_and_hazards.md), the debug accessors, the framebuffer read port and the tone events
(10_state.md R32 to R35). -/

namespace Sys2Proof.Machine

/-- "set key N pressed/released" (10_state.md R19). -/
def State.setKey (s : State) (k : Key) (pressed : Bool) : State := { s with key := s.key.set k.val pressed }

/-- Stop: the host clears RUNFLAG (R214). -/
def State.requestStop (s : State) : State := { s with runFlag := false }

/-- Reset (R210): every element takes its reset value, but RUNFLAG, which Reset does not touch. The inputs of the
steps to come (`agenda`, `drawCount`, `rndIn`) and the parameters are not the core's and stay. -/
def State.hostReset (s : State) : State :=
  { State.reset with
    runFlag := s.runFlag, rndIn := s.rndIn, cfg := s.cfg, agenda := s.agenda, drawCount := s.drawCount }

/-- Store bytes at rising addresses. -/
def Memory.writeBytes : Memory → Nat → List Byte → Memory
  | m, _, []      => m
  | m, a, b :: bs => Memory.writeBytes (m.write a b) (a + 1) bs

/-- What Load returns to the host (R212). -/
structure LoadReport where
  written   : Nat
  truncated : Bool
  deriving DecidableEq, Repr

/-- The count and the verdict Load reports for an image (R212). -/
def loadReport (image : List Byte) : LoadReport :=
  ⟨min image.length maxImage, decide (maxImage < image.length)⟩

/-- Load (R212). An image that does not fit is written as far as it goes, never wraps, and leaves the core IDLE. -/
def State.hostLoad (s : State) (image : List Byte) : State :=
  let t := { s with
    mem := s.mem.writeBytes programOrigin (image.take maxImage), pc := 0x0200, fault := none, lpc := 0 }
  if maxImage < image.length then { t with runState := .idle }
  else { t with runFlag := true, runState := .running }

/-- An instruction word placed as a program of its own, to be run by the very next step: Load of its bytes, with no
other agent's move queued before the step (assumption 5). -/
def State.loadWord (s : State) (w : Word) : State := { s.hostLoad (bytesOfWord w) with agenda := [] }

/-- The host's read-only view of the core (R34). A register is read by `State.reg`. -/
structure DebugView where
  pc         : Word
  i          : Word
  stackDepth : Nat
  fault      : Option FaultRecord
  lpc        : Word
  runState   : RunState
  deriving DecidableEq, Repr

/-- The debug accessors (R34). -/
def State.debugView (s : State) : DebugView := ⟨s.pc, s.i, s.sp.val, s.fault, s.lpc, s.runState⟩

/-- The framebuffer read port: the 2048 cells in index order (R35). -/
def State.framePort (s : State) : Vector Bool 2048 := Vector.ofFn fun c => cell s.fb c.val

/-- The audio sink's two events (R32). -/
inductive ToneEvent where
  | start
  | stop
  deriving DecidableEq, Repr

/-- The edge of SND between two consecutive step ends (R32). -/
def toneEvent (before after : State) : Option ToneEvent :=
  match before.snd, after.snd with
  | false, true => some .start
  | true, false => some .stop
  | _, _        => none

end Sys2Proof.Machine
end

