-- ==== Sys2Proof/Machine/Flags.lean ====
section
/-! DEFINITION. Every flag computation of the core: the value VF receives (10_state.md R12) and the two orders in which
result and flag are written (41_arithmetic.md R100, R104). -/

namespace Sys2Proof.Machine

/-- A flag bit as the 8-bit value 0x00 or 0x01 (R100). -/
def flagByte (b : Bool) : Byte := if b then 0x01 else 0x00

/-- ADD Vx,Vy: the 8-bit sum overflows 255 (R107). -/
def carryOut (a b : Byte) : Bool := decide (a.toNat + b.toNat > 255)

/-- SUB and SUBN: no borrow, the minuend is at least the subtrahend (R108, R110). -/
def noBorrow (minuend subtrahend : Byte) : Bool := decide (minuend.toNat ≥ subtrahend.toNat)

/-- SHR: the bit shifted out of the low end (R109). -/
def lowBit (s : Byte) : Bool := s.getLsbD 0

/-- SHL: the bit shifted out of the high end (R111). -/
def highBit (s : Byte) : Bool := s.getLsbD 7

/-- Result first, flag last, so that with x = 0xF the flag remains (R100, R12). -/
def State.setResultFlag (s : State) (x : Reg) (result : Byte) (flag : Bool) : State :=
  (s.setReg x result).setReg vf (flagByte flag)

/-- OR, AND, XOR: VF is reset first, the operands are read afterwards, then the result is written (R104). -/
def State.logic (s : State) (f : Byte → Byte → Byte) (x y : Reg) : State :=
  let s0 := s.setReg vf 0
  s0.setReg x (f (s0.reg x) (s0.reg y))

end Sys2Proof.Machine
end

