-- ==== Sys2Proof/Machine/Operands.lean ====
section
/-! DEFINITION. Every operand form of the instruction set beyond a plain register or immediate. -/

namespace Sys2Proof.Machine

/-- An address operand widened to 16 bits (30_encoding.md R63). -/
def addrWord (nnn : Addr) : Word := nnn.zeroExtend 16

/-- A register value widened to 16 bits. -/
def byteWord (b : Byte) : Word := b.zeroExtend 16

/-- The unmasked address I + k of the k-th byte of a block, over the integers (45_index_memory.md R160; the mask is
`memRead`'s and `memWrite`'s). -/
def State.blockAddr (s : State) (k : Nat) : Nat := s.i.toNat + k

/-- The register SHR and SHL shift (00_scope.md R7 SHIFT_SOURCE; 41_arithmetic.md R109, R111). -/
def State.shiftOperand (s : State) (x y : Reg) : Byte :=
  match s.cfg.shiftSource with
  | .vx => s.reg x
  | .vy => s.reg y

/-- The key a register value selects: its low nibble (44_keypad_timers.md R151). -/
def keyOf (b : Byte) : Key := (b.extractLsb' 0 4).toFin

/-- The address of the glyph a register value selects: FONT_BASE + (low nibble) * 5 (45_index_memory.md R163). -/
def glyphAddr (b : Byte) : Word := BitVec.ofNat 16 (fontBase + (b &&& 0x0F).toNat * glyphBytes)

/-- I after a block transfer of `count` registers (00_scope.md R7 LDST_I_INCREMENT; 45_index_memory.md R165). -/
def State.advanceI (s : State) (count : Nat) : State :=
  if s.cfg.ldstIncrement then s.setI (s.i + BitVec.ofNat 16 count) else s

/-- The sprite's origin column, wrapped modulo the width (43_display.md R142). -/
def spriteCol (b : Byte) : Nat := b.toNat % fbWidth

/-- The sprite's origin row, wrapped modulo the height (43_display.md R142). -/
def spriteRow (b : Byte) : Nat := b.toNat % fbHeight

end Sys2Proof.Machine
end

