-- ==== Sys2Proof/Machine/Arith.lean ====
section
/-! DEFINITION. Register load, arithmetic, logic, shift and random instructions (41_arithmetic.md). -/

namespace Sys2Proof.Machine

/-- LD Vx, byte (R101). -/
def execLdImm (x : Reg) (nn : Byte) (s : State) : Result := .next (s.setReg x nn)

/-- ADD Vx, byte: no flag (R102). -/
def execAddImm (x : Reg) (nn : Byte) (s : State) : Result := .next (s.setReg x (s.reg x + nn))

/-- LD Vx, Vy (R103). -/
def execLdReg (x y : Reg) (s : State) : Result := .next (s.setReg x (s.reg y))

/-- OR Vx, Vy (R104). -/
def execOr (x y : Reg) (s : State) : Result := .next (s.logic (· ||| ·) x y)

/-- AND Vx, Vy (R105). -/
def execAnd (x y : Reg) (s : State) : Result := .next (s.logic (· &&& ·) x y)

/-- XOR Vx, Vy (R106). -/
def execXor (x y : Reg) (s : State) : Result := .next (s.logic (· ^^^ ·) x y)

/-- ADD Vx, Vy (R107). -/
def execAddReg (x y : Reg) (s : State) : Result :=
  .next (s.setResultFlag x (s.reg x + s.reg y) (carryOut (s.reg x) (s.reg y)))

/-- SUB Vx, Vy (R108). -/
def execSub (x y : Reg) (s : State) : Result :=
  .next (s.setResultFlag x (s.reg x - s.reg y) (noBorrow (s.reg x) (s.reg y)))

/-- SUBN Vx, Vy (R110). -/
def execSubn (x y : Reg) (s : State) : Result :=
  .next (s.setResultFlag x (s.reg y - s.reg x) (noBorrow (s.reg y) (s.reg x)))

/-- SHR Vx, Vy (R109). -/
def execShr (x y : Reg) (s : State) : Result :=
  .next (s.setResultFlag x (s.shiftOperand x y >>> 1) (lowBit (s.shiftOperand x y)))

/-- SHL Vx, Vy (R111). -/
def execShl (x y : Reg) (s : State) : Result :=
  .next (s.setResultFlag x (s.shiftOperand x y <<< 1) (highBit (s.shiftOperand x y)))

/-- RND Vx, byte: the step's random input, masked (R114). -/
def execRnd (x : Reg) (nn : Byte) (s : State) : Result := .next (s.setReg x (s.rndIn &&& nn))

end Sys2Proof.Machine
end

