-- ==== Sys2Proof/Machine/Control.lean ====
section
/-! DEFINITION. Control transfer: SYS, jumps, call, return, skips (42_control_flow.md). On entry PC = a + 2. -/

namespace Sys2Proof.Machine

/-- SYS addr: nothing, or UnknownOpcode, by SYS_POLICY; `nnn` only names the word (R121). -/
def execSys (nnn : Addr) (s : State) : Result :=
  match s.cfg.sysPolicy with
  | .nop   => .next s
  | .fault => .next (s.raiseBody .unknownOpcode (encode (.sys nnn)))

/-- JP addr (R122). -/
def execJp (nnn : Addr) (s : State) : Result := .next (s.setPC (addrWord nnn))

/-- JP V0, addr: not masked to 12 bits (R125). -/
def execJpV0 (nnn : Addr) (s : State) : Result := .next (s.setPC (addrWord nnn + byteWord (s.reg 0)))

/-- CALL addr, or StackOverflow with nothing written when SP = 16 (R123). -/
def execCall (nnn : Addr) (s : State) : Result :=
  match s.push? with
  | some t => .next (t.setPC (addrWord nnn))
  | none   => .next (s.raiseBody .stackOverflow (encode (.call nnn)))

/-- RET, or StackUnderflow with nothing written when SP = 0 (R124). -/
def execRet (s : State) : Result :=
  match s.pop? with
  | some t => .next t
  | none   => .next (s.raiseBody .stackUnderflow (encode .ret))

/-- SE Vx, byte (R126). -/
def execSeImm (x : Reg) (nn : Byte) (s : State) : Result := .next (s.skipIf (s.reg x == nn))

/-- SNE Vx, byte (R127). -/
def execSneImm (x : Reg) (nn : Byte) (s : State) : Result := .next (s.skipIf (s.reg x != nn))

/-- SE Vx, Vy (R128). -/
def execSeReg (x y : Reg) (s : State) : Result := .next (s.skipIf (s.reg x == s.reg y))

/-- SNE Vx, Vy (R129). -/
def execSneReg (x y : Reg) (s : State) : Result := .next (s.skipIf (s.reg x != s.reg y))

end Sys2Proof.Machine
end

