-- ==== Sys2Proof/Machine/Display.lean ====
section
/-! DEFINITION. Display instructions CLS and DRW (43_display.md). -/

namespace Sys2Proof.Machine

/-- A framebuffer being drawn on, and whether a set cell has been unset so far (`coll` of R142). -/
structure Canvas where
  fb   : Frame
  coll : Bool
  deriving DecidableEq, Repr

/-- One pixel of a sprite row: column `px`, row `py`, sprite bit `bit`. Columns past the right edge are clipped; a clear
bit changes nothing (R142). -/
def Canvas.pixel (cv : Canvas) (py px : Nat) (bit : Bool) : Canvas :=
  if px ≤ 63 ∧ bit = true then
    ⟨flipCell cv.fb (py * fbWidth + px), cv.coll || cell cv.fb (py * fbWidth + px)⟩
  else cv

/-- One sprite row: the byte's bit 7 is the leftmost of 8 pixels (R140, R142). -/
def Canvas.row (cv : Canvas) (py x0 : Nat) (b : Byte) : Canvas :=
  (List.range spriteWidth).foldl (fun c k => c.pixel py (x0 + k) (b.getLsbD (7 - k))) cv

/-- All rows of a sprite, row r read at I + r; rows below the bottom edge are clipped (R142). -/
def State.drawSprite (s : State) (x0 y0 n : Nat) : Canvas :=
  (List.range n).foldl
    (fun c r => if y0 + r ≤ 31 then c.row (y0 + r) x0 (s.memRead (s.blockAddr r)) else c) ⟨s.fb, false⟩

/-- CLS (R141). -/
def execCls (s : State) : Result := .next (s.draw 0)

/-- DRW Vx, Vy, nibble: the origin is read before VF is written, and VF is written last (R142). -/
def execDrw (x y : Reg) (n : Nibble) (s : State) : Result :=
  let cv := s.drawSprite (spriteCol (s.reg x)) (spriteRow (s.reg y)) n.toNat
  .next ((s.draw cv.fb).setReg vf (flagByte cv.coll))

end Sys2Proof.Machine
end

