-- ==== Sys2Proof/Machine/IndexMem.lean ====
section
/-! DEFINITION. Index register and memory instructions (45_index_memory.md). -/

namespace Sys2Proof.Machine

/-- LD I, addr (R161). -/
def execLdI (nnn : Addr) (s : State) : Result := .next (s.setI (addrWord nnn))

/-- ADD I, Vx: mod 65536, no flag (R162). -/
def execAddI (x : Reg) (s : State) : Result := .next (s.setI (s.i + byteWord (s.reg x)))

/-- LD F, Vx (R163). -/
def execLdF (x : Reg) (s : State) : Result := .next (s.setI (glyphAddr (s.reg x)))

/-- Add 3 to the nibble of the accumulator at bit `lo` when it is 5 or more (R164). -/
def dabbleFix (acc : BitVec 12) (lo : Nat) : BitVec 12 :=
  if 5 ≤ (acc.extractLsb' lo 4).toNat then acc + (0x003#12 <<< lo) else acc

/-- One iteration of double-dabble: the three corrections, then the shift that takes in bit `b` (R164). -/
def dabbleStep (acc : BitVec 12) (b : Bool) : BitVec 12 :=
  let c := dabbleFix (dabbleFix (dabbleFix acc 0) 4) 8
  (c <<< 1) ||| (if b then 1#12 else 0#12)

/-- The accumulator after all 8 iterations: hundreds in 11:8, tens in 7:4, ones in 3:0 (R164). -/
def doubleDabble (v : Byte) : BitVec 12 :=
  [7, 6, 5, 4, 3, 2, 1, 0].foldl (fun acc i => dabbleStep acc (v.getLsbD i)) 0

/-- LD B, Vx: three digit bytes at I, I + 1, I + 2 (R164). -/
def execLdB (x : Reg) (s : State) : Result :=
  let acc := doubleDabble (s.reg x)
  .next (((s.memWrite (s.blockAddr 0) ((acc.extractLsb' 8 4).zeroExtend 8)).memWrite
    (s.blockAddr 1) ((acc.extractLsb' 4 4).zeroExtend 8)).memWrite
    (s.blockAddr 2) ((acc.extractLsb' 0 4).zeroExtend 8))

/-- Store V[0] .. V[count-1] at I, I + 1, ..., in ascending order (R165). -/
def State.storeBlock (s : State) : Nat → State
  | 0     => s
  | k + 1 => (s.storeBlock k).memWrite (s.blockAddr k) (s.reg (Fin.ofNat 16 k))

/-- Load V[0] .. V[count-1] from I, I + 1, ..., in ascending order (R166). -/
def State.loadBlock (s : State) : Nat → State
  | 0     => s
  | k + 1 => (s.loadBlock k).setReg (Fin.ofNat 16 k) (s.memRead (s.blockAddr k))

/-- LD [I], Vx (R165). -/
def execLdMemVx (x : Reg) (s : State) : Result := .next ((s.storeBlock (x.val + 1)).advanceI (x.val + 1))

/-- LD Vx, [I] (R166). -/
def execLdVxMem (x : Reg) (s : State) : Result := .next ((s.loadBlock (x.val + 1)).advanceI (x.val + 1))

end Sys2Proof.Machine
end

