-- ==== Sys2Proof/Machine/KeyTimer.lean ====
section
/-! DEFINITION. Key-pad and timer instructions (44_keypad_timers.md). -/

namespace Sys2Proof.Machine

/-- SKP Vx (R151). -/
def execSkp (x : Reg) (s : State) : Result := .next (s.skipIf (s.keyDown (keyOf (s.reg x))))

/-- SKNP Vx (R152). -/
def execSknp (x : Reg) (s : State) : Result := .next (s.skipIf (!s.keyDown (keyOf (s.reg x))))

/-- LD Vx, K: the lowest pressed key, or PC back to this instruction (R153). -/
def execLdVxK (x : Reg) (s : State) : Result :=
  match s.firstKey with
  | some k => .next (s.setReg x (BitVec.ofNat 8 k.val))
  | none   => .next (s.setPC (s.pc - 2))

/-- LD Vx, DT: DT before this step's gate (R154). -/
def execLdVxDT (x : Reg) (s : State) : Result := .next (s.setReg x s.dt)

/-- LD DT, Vx (R155). -/
def execLdDTVx (x : Reg) (s : State) : Result := .next (s.setDT (s.reg x))

/-- LD ST, Vx (R156). -/
def execLdSTVx (x : Reg) (s : State) : Result := .next (s.setST (s.reg x))

end Sys2Proof.Machine
end

