-- ==== Sys2Proof/Machine/Sequencer.lean ====
section
/-! DEFINITION. The core's one transition, `Step(tick, rnd)` of 40_step_loop.md R80, and the move the machine makes
next. -/

namespace Sys2Proof.Machine

/-- S1 with RUNFLAG = 0: STOPPED, REDRAW driven to 0, nothing else (R82). -/
def State.enterStopped (s : State) : State := { s with runState := .stopped, redraw := false }

/-- S2: Runaway, with the PC that cannot be fetched from and the last valid PC (R83, R184). -/
def State.raiseRunaway (s : State) : State := s.raise .runaway none s.pc (some s.lpc)

/-- S3 and S4: the fetch has written LPC and PC is advanced; REDRAW is down until a display instruction raises it, and
the step's random input is sampled (R84, R85, R31, R30). -/
def State.fetched (s : State) (rnd : Byte) : State :=
  { s with lpc := s.pc, pc := s.pc + 2, redraw := false, rndIn := rnd }

/-- S7 and S8, which a step that raised a fatal condition does not reach (R89, R90, R91). -/
def State.finishStep (s : State) (tick : Bool) : State :=
  if s.runState = .running then (s.timerGate tick).driveLevels else s

/-- S6 to S8: the body, then the gate and the outputs. -/
def runBody (i : Instr) (tick : Bool) (s : State) : Result :=
  match exec i s with
  | .next t    => .next (t.finishStep tick)
  | .fault f   => .fault f
  | .refused r => .refused r

/-- `Step(tick, rnd)` of R80: rest, stop check, runaway check, fetch, PC increment, decode, execute, gate, outputs. -/
def coreStep (tick : Bool) (rnd : Byte) (s : State) : Result :=
  if s.runState ≠ .running then .fault (.coreAtRest s.runState)
  else if s.runFlag = false then .next s.enterStopped
  else if lastFetch < s.pc.toNat then .next s.raiseRunaway
  else
    match decodeWord s.cfg.strictXY0 (s.fetch s.pc) with
    | .ok i    => runBody i tick (s.fetched rnd)
    | .error _ => .next ((s.fetched rnd).raise .unknownOpcode (some (s.fetch s.pc)) s.pc none)

/-- The move the machine makes next: the first queued one, or, with none queued, a core step whose two inputs are free
values (20_memory.md R50; assumptions 2 and 3). -/
def nextMove (s : State) : Result :=
  match s.agenda with
  | []                => coreStep (Config.freeTick s.drawCount) (Config.freeRnd s.drawCount)
                           { s with drawCount := s.drawCount + 1 }
  | .invoke t r :: ms => coreStep t r { s with agenda := ms }
  | .setKey k p :: ms => .next (State.setKey { s with agenda := ms } k p)
  | .stop :: ms       => .next (State.requestStop { s with agenda := ms })
  | .reset :: ms      => .next (State.hostReset { s with agenda := ms })
  | .load b :: ms     => .next (State.hostLoad { s with agenda := ms } b)

end Sys2Proof.Machine
end

