-- ==== Sys2Proof/Safety.lean ====
section
/-! DEFINITION. What counts as a safe state, what every state of a run satisfies, which states a run reaches, and the
words claims are made of: the parts of the state, frames, the numbers the patterns of the opcode table spell. -/

namespace Sys2Proof.Machine

/-- A state that no fatal condition has ended: FAULTED is never a state of a correct run (60_exceptions.md R190). -/
abbrev State.Safe (s : State) : Prop := s.runState ≠ .faulted

/-- A FAULT record has the fields R180's table gives its cause. -/
abbrev FaultRecord.wf (f : FaultRecord) : Prop :=
  match f.cause with
  | .runaway => f.opcode = none ∧ f.lastPc.isSome ∧ 0xFFE < f.address.toNat
  | _        => f.opcode.isSome ∧ f.lastPc = none ∧ f.address.toNat ≤ 0xFFE

/-- What holds of every state a run reaches. -/
structure State.Inv (s : State) : Prop where
  /-- Memory is in canonical form, inside the 4096 bytes (20_memory.md R40). -/
  mem_wf    : s.mem.wf
  /-- The largest value PC can reach (10_state.md R14). -/
  pc_le     : s.pc.toNat ≤ 0x10FE
  /-- A stack slot holds a PC value pushed by a CALL, at most 0x1000. -/
  stack_le  : ∀ k : Fin 16, s.stack[k.val].toNat ≤ 0x1000
  /-- LPC holds an address that was fetched from (10_state.md R23). -/
  lpc_le    : s.lpc.toNat ≤ 0xFFE
  /-- SND is the level of ST (10_state.md R32). -/
  snd_level : s.snd = decide (s.st ≠ 0)
  /-- DLY is the level of DT (10_state.md R33). -/
  dly_level : s.dly = decide (s.dt ≠ 0)
  /-- FAULT holds a record exactly in FAULTED (10_state.md R21, R22). -/
  fault_iff : s.fault.isSome = decide (s.runState = .faulted)
  /-- The record has the shape of its cause. -/
  fault_wf  : ∀ f ∈ s.fault, f.wf

/-- The states of the runs that begin with a Reset: of any state, whatever parameters and queued moves it has (R213). -/
inductive State.Reachable : State → Prop where
  | reset (s : State) : Reachable s.hostReset
  | step {s t : State} : Reachable s → Machine.step s = .next t → Reachable t

/-- One part of the state, as small as an instruction can change it. -/
inductive Part where
  | v (x : Reg)
  | i
  | pc
  | sp
  | stack (k : Fin 16)
  | dt
  | st
  | key (k : Key)
  | mem (a : Nat)
  | fb (c : Nat)
  | runState
  | fault
  | lpc
  | runFlag
  | redraw
  | snd
  | dly
  | rndIn
  | cfg
  | agenda
  | drawCount
  deriving DecidableEq, Repr

/-- The part has the same value in both states. Memory is compared byte by byte, the framebuffer cell by cell. -/
def Part.same (s t : State) : Part → Prop
  | .v x       => t.reg x = s.reg x
  | .i         => t.i = s.i
  | .pc        => t.pc = s.pc
  | .sp        => t.sp = s.sp
  | .stack k   => t.stack[k.val] = s.stack[k.val]
  | .dt        => t.dt = s.dt
  | .st        => t.st = s.st
  | .key k     => t.keyDown k = s.keyDown k
  | .mem a     => t.mem.read a = s.mem.read a
  | .fb c      => cell t.fb c = cell s.fb c
  | .runState  => t.runState = s.runState
  | .fault     => t.fault = s.fault
  | .lpc       => t.lpc = s.lpc
  | .runFlag   => t.runFlag = s.runFlag
  | .redraw    => t.redraw = s.redraw
  | .snd       => t.snd = s.snd
  | .dly       => t.dly = s.dly
  | .rndIn     => t.rndIn = s.rndIn
  | .cfg       => t.cfg = s.cfg
  | .agenda    => t.agenda = s.agenda
  | .drawCount => t.drawCount = s.drawCount

/-- A frame: every part but the listed ones has the same value in both states. -/
def SameBut (ws : List Part) (s t : State) : Prop := ∀ p, p ∉ ws → p.same s t

/-- All cells of the framebuffer. -/
def allCells : List Part := (List.range 2048).map .fb

/-- The bytes of a block of `count` bytes at I, each address masked on its own (20_memory.md R41). -/
def blockParts (s : State) (count : Nat) : List Part := (List.range count).map fun k => .mem ((s.i.toNat + k) % 4096)

/-- The machine's next move is a core step with these inputs, taken from `s0`: the queue, or the free values
(20_memory.md R50; 10_state.md R30). -/
def Invokes (s : State) (tick : Bool) (rnd : Byte) (s0 : State) : Prop :=
  (∃ ms, s.agenda = .invoke tick rnd :: ms ∧ s0 = { s with agenda := ms }) ∨
  (s.agenda = [] ∧ tick = Config.freeTick s.drawCount ∧ rnd = Config.freeRnd s.drawCount ∧
    s0 = { s with drawCount := s.drawCount + 1 })

/-- A core step that gets as far as the fetch: RUNNING, RUNFLAG set, PC fetchable (40_step_loop.md R81 to R83). -/
def Fetches (s : State) : Prop := s.runState = .running ∧ s.runFlag = true ∧ s.pc.toNat ≤ 0xFFE

/-- The number that a pattern `tnnn` of R75 spells. -/
def patA (t : Nat) (nnn : Addr) : Word := BitVec.ofNat 16 (t * 0x1000 + nnn.toNat)

/-- The number that a pattern `txnn` of R75 spells. -/
def patXK (t : Nat) (x : Reg) (nn : Byte) : Word := BitVec.ofNat 16 (t * 0x1000 + x.val * 0x100 + nn.toNat)

/-- The number that a pattern `txyn` of R75 spells. -/
def patXYN (t : Nat) (x y : Reg) (n : Nibble) : Word :=
  BitVec.ofNat 16 (t * 0x1000 + x.val * 0x100 + y.val * 0x10 + n.toNat)

/-- Cell `c` lies under a set bit of the sprite of `n` rows at I drawn with its origin at column `x0`, row `y0`, inside
the screen (43_display.md R142). -/
def SpriteLights (s : State) (x0 y0 n c : Nat) : Prop :=
  ∃ r k, r < n ∧ k < 8 ∧ y0 + r ≤ 31 ∧ x0 + k ≤ 63 ∧ c = (y0 + r) * 64 + (x0 + k) ∧
    (s.mem.read ((s.i.toNat + r) % 4096)).getLsbD (7 - k) = true

/-- A chain of CALLs, each run on the state the one before it left. -/
def callChain (s : State) (targets : List Addr) : Result :=
  targets.foldl (fun o n => match o with | .next u => exec (.call n) u | o => o) (.next s)

end Sys2Proof.Machine
end

