-- ==== Sys2Proof/Certificates/Slice0/Obligations.lean ====
section
/-! DEFINITION. The statements about the machine, for the provers. A clause with a word of the form `patXK 0x6 x nn` is
the instruction's encoding: the number its pattern of 30_encoding.md R75 spells. -/

open Sys2Proof Sys2Proof.Machine

/-! ### Encoding -/

/-- Every well-formed instruction, laid out as bytes and followed by any bytes, is decoded to itself with every operand,
and the bytes after it are left (30_encoding.md R60, R63; the byte order is the spec's own choice, D1). -/
def Obligations.DecodeGivesBackEncodedBytes : Prop :=
  ∀ (strict : Bool) (i : Instr) (rest : List Byte), i.wf = true →
    decodeBytes strict (encodeBytes i ++ rest) = .ok (i, rest)

/-- What a word decodes to is well formed and encodes to that word; only the ignored low nibble of 5xyN and 9xyN is lost
(R63, R69; 93_implementation_defined.md U20). -/
def Obligations.EncodeGivesBackDecodedWord : Prop :=
  ∀ (strict : Bool) (w : Word) (i : Instr), decodeWord strict w = .ok i →
    i.wf = true ∧
    (encode i = w ∨
      (strict = false ∧ (fieldT w = 0x5#4 ∨ fieldT w = 0x9#4) ∧ (encode i).toNat = w.toNat / 0x10 * 0x10))

/-- The words that decode to no instruction are exactly the illegal ones of R71's table, with the words STRICT_XY0 adds;
the rejection names the word. The table is the spec's derivation, STRICT_XY0 its choice (D8). -/
def Obligations.RejectedWordsAreTheIllegalOnes : Prop :=
  ∀ (strict : Bool) (w : Word),
    (decodeWord strict w = .error (.unknownOpcode w) ↔
      (w.toNat / 0x1000 = 0x8 ∧ w.toNat % 0x10 ∈ [0x8, 0x9, 0xA, 0xB, 0xC, 0xD, 0xF]) ∨
      (w.toNat / 0x1000 = 0xE ∧ w.toNat % 0x100 ∉ [0x9E, 0xA1]) ∨
      (w.toNat / 0x1000 = 0xF ∧
        w.toNat % 0x100 ∉ [0x07, 0x0A, 0x15, 0x18, 0x1E, 0x29, 0x33, 0x55, 0x65]) ∨
      (strict = true ∧ (w.toNat / 0x1000 = 0x5 ∨ w.toNat / 0x1000 = 0x9) ∧ w.toNat % 0x10 ≠ 0)) ∧
    ∀ e, decodeWord strict w = .error e → e = .unknownOpcode w

/-- The fields of a word are the digits of its number at R61's bit positions, and they overlap as R61 says. -/
def Obligations.FieldsAreTheBitsOfTheWord : Prop :=
  ∀ w : Word,
    (fieldT w).toNat = w.toNat / 0x1000 ∧ (fieldX w).val = w.toNat / 0x100 % 0x10 ∧
    (fieldY w).val = w.toNat / 0x10 % 0x10 ∧ (fieldN w).toNat = w.toNat % 0x10 ∧
    (fieldNN w).toNat = w.toNat % 0x100 ∧ (fieldNNN w).toNat = w.toNat % 0x1000 ∧
    (fieldNN w).toNat = (fieldY w).val * 0x10 + (fieldN w).toNat ∧
    (fieldNNN w).toNat = (fieldX w).val * 0x100 + (fieldNN w).toNat ∧
    bytesOfWord w = [BitVec.ofNat 8 ((fieldT w).toNat * 0x10 + (fieldX w).val), fieldNN w]

/-- A few words of the decode table of 95_test_vectors.md V-ENC, one of each format. -/
def Obligations.SampleWordsDecode : Prop :=
  ∀ strict : Bool,
    decodeWord strict 0x00E0 = .ok .cls ∧ decodeWord strict 0x01E0 = .ok (.sys 0x1E0) ∧
    decodeWord strict 0x1ABC = .ok (.jp 0xABC) ∧ decodeWord strict 0x7305 = .ok (.addImm 3 0x05) ∧
    decodeWord strict 0x8124 = .ok (.addReg 1 2) ∧ decodeWord strict 0xD125 = .ok (.drw 1 2 5) ∧
    decodeWord strict 0xE5A1 = .ok (.sknp 5) ∧ decodeWord strict 0xF265 = .ok (.ldVxMem 2)

/-! ### The step -/

/-- A core step runs the instruction decoded at PC: the body sees LPC = a, PC = a + 2, REDRAW down and the step's random
input, and a body that leaves the core RUNNING is followed by the timer gate and the outputs (40_step_loop.md R80, R84 to
R91; the gate after the body is the spec's own choice, D21). -/
def Obligations.StepRunsDecodedInstruction : Prop :=
  ∀ (s s0 : State) (tick : Bool) (rnd : Byte) (i : Instr),
    Invokes s tick rnd s0 → Fetches s0 → decodeWord s0.cfg.strictXY0 (s0.fetch s0.pc) = .ok i →
    ∃ t, exec i { s0 with lpc := s0.pc, pc := s0.pc + 2, redraw := false, rndIn := rnd } = .next t ∧
      step s = .next (if t.runState = .running then
          { t with dt := tickTimer tick t.dt, st := tickTimer tick t.st,
                   snd := decide (tickTimer tick t.st ≠ 0), dly := decide (tickTimer tick t.dt ≠ 0) }
        else t)

/-- The fetch is big-endian: the byte at the lower address is bits 15:8 (20_memory.md R44; the spec's own choice,
D1). -/
def Obligations.FetchIsBigEndian : Prop :=
  ∀ (s : State) (a : Word), a.toNat ≤ 0xFFE →
    (s.fetch a).toNat = (s.mem.read a.toNat).toNat * 0x100 + (s.mem.read (a.toNat + 1)).toNat

/-- A core step with RUNFLAG cleared enters STOPPED, drives REDRAW to 0 and changes nothing else of the core, whatever PC
is: a stop wins over Runaway (R82; 60_exceptions.md R188). -/
def Obligations.ClearedRunFlagStopsTheStep : Prop :=
  ∀ (s s0 : State) (tick : Bool) (rnd : Byte),
    Invokes s tick rnd s0 → s0.runState = .running → s0.runFlag = false →
    ∃ t, step s = .next t ∧ t.runState = .stopped ∧ t.redraw = false ∧ SameBut [.runState, .redraw] s0 t

/-- A core step with PC above 0xFFE raises Runaway: the record holds PC and LPC, and nothing else but RUNSTATE and
REDRAW changes (R83; 60_exceptions.md R184). That 0xFFF is such a PC is the spec's own choice (D3). -/
def Obligations.UnfetchablePcRaisesRunaway : Prop :=
  ∀ (s s0 : State) (tick : Bool) (rnd : Byte),
    Invokes s tick rnd s0 → s0.runState = .running → s0.runFlag = true → 0xFFE < s0.pc.toNat →
    ∃ t, step s = .next t ∧ t.fault = some ⟨.runaway, none, s0.pc, some s0.lpc⟩ ∧ t.runState = .faulted ∧
      t.redraw = false ∧ SameBut [.fault, .runState, .redraw] s0 t

/-- A core step that fetches an illegal word raises UnknownOpcode with the word and its address; PC has advanced and LPC
holds the address; REDRAW is 0 and nothing else moves, the timers and levels among it, whatever the tick is (R84 to R86, R91;
60_exceptions.md R183, R190). That the gate does not run is the spec's own choice (D21, assumption 12). -/
def Obligations.IllegalWordRaisesUnknownOpcode : Prop :=
  ∀ (s s0 : State) (tick : Bool) (rnd : Byte) (e : Reject),
    Invokes s tick rnd s0 → Fetches s0 → decodeWord s0.cfg.strictXY0 (s0.fetch s0.pc) = .error e →
    ∃ t, step s = .next t ∧ t.fault = some ⟨.unknownOpcode, some (s0.fetch s0.pc), s0.pc, none⟩ ∧
      t.runState = .faulted ∧ t.redraw = false ∧ t.pc = s0.pc + 2 ∧ t.lpc = s0.pc ∧
      SameBut [.fault, .runState, .redraw, .pc, .lpc, .rndIn] s0 t

/-- The machine has no next state exactly when a core step is invoked and RUNSTATE is not RUNNING; then it stops by name,
and it never refuses. That a step at rest is a stop, and its name, are the model's choice (assumption 6; R81, U10). -/
def Obligations.StepStopsExactlyAtRest : Prop :=
  ∀ s : State,
    (∀ r, step s ≠ .refused r) ∧
    ∀ f, step s = .fault f ↔
      f = .coreAtRest s.runState ∧ s.runState ≠ .running ∧ ∃ tick rnd s0, Invokes s tick rnd s0

/-- The timer gate and the outputs of a core step. Ending RUNNING, each timer the body left above 0 goes down by exactly 1
on a tick, else keeps its value, and SND and DLY are the levels afterwards; stopped or faulted, neither timer nor level
changes, and REDRAW is 0 (R89 to R91; 10_state.md R32, R33). The gate after the body is the spec's own choice (D21). -/
def Obligations.TimersCountDownAtTheGate : Prop :=
  ∀ (s s0 t : State) (tick : Bool) (rnd : Byte),
    Invokes s tick rnd s0 → step s = .next t →
    (t.runState = .running →
      ∃ i u, decodeWord s0.cfg.strictXY0 (s0.fetch s0.pc) = .ok i ∧ exec i (s0.fetched rnd) = .next u ∧
        t.dt.toNat = u.dt.toNat - (if tick then 1 else 0) ∧ t.st.toNat = u.st.toNat - (if tick then 1 else 0) ∧
        t.snd = decide (t.st ≠ 0) ∧ t.dly = decide (t.dt ≠ 0) ∧ t.redraw = u.redraw ∧
        SameBut [.dt, .st, .snd, .dly] u t) ∧
    (t.runState ≠ .running →
      t.dt = s0.dt ∧ t.st = s0.st ∧ t.snd = s0.snd ∧ t.dly = s0.dly ∧ t.redraw = false)

/-- Which core steps end in a fatal condition, and with which cause: the four conditions, and nothing else faults
(60_exceptions.md R180, R186, R188). The order of the checks, and that 0xFFF is unfetchable, are the spec's own choice (D26,
D3). -/
def Obligations.StepFaultsExactlyOnTheFourConditions : Prop :=
  ∀ (s s0 t : State) (tick : Bool) (rnd : Byte) (c : FatalCondition),
    Invokes s tick rnd s0 → s0.runState = .running → s0.runFlag = true → step s = .next t →
    ((t.runState = .faulted ∧ ∃ f, t.fault = some f ∧ f.cause = c) ↔
      match c with
      | .runaway => 0xFFE < s0.pc.toNat
      | .unknownOpcode => s0.pc.toNat ≤ 0xFFE ∧
          ((∃ e, decodeWord s0.cfg.strictXY0 (s0.fetch s0.pc) = .error e) ∨
            (s0.cfg.sysPolicy = .fault ∧
              ∃ nnn, decodeWord s0.cfg.strictXY0 (s0.fetch s0.pc) = .ok (.sys nnn)))
      | .stackOverflow => s0.pc.toNat ≤ 0xFFE ∧ s0.sp = 16 ∧
          ∃ nnn, decodeWord s0.cfg.strictXY0 (s0.fetch s0.pc) = .ok (.call nnn)
      | .stackUnderflow => s0.pc.toNat ≤ 0xFFE ∧ s0.sp = 0 ∧
          decodeWord s0.cfg.strictXY0 (s0.fetch s0.pc) = .ok .ret)

/-- Fatal conditions are precise: the step that raises one has changed nothing but the record, RUNSTATE, REDRAW, and, when
a word was fetched, PC and LPC; the record's opcode is the fetched word and its address that word's (60_exceptions.md R189,
R180, R190; R91). That the gate does not run, whatever the tick is, is the spec's own choice (D21, assumption 12). -/
def Obligations.FatalConditionsArePrecise : Prop :=
  ∀ (s s0 t : State) (tick : Bool) (rnd : Byte),
    Invokes s tick rnd s0 → s0.runState = .running → s0.runFlag = true → step s = .next t → t.runState = .faulted →
    SameBut [.fault, .runState, .redraw, .pc, .lpc, .rndIn] s0 t ∧ t.redraw = false ∧
    (s0.pc.toNat ≤ 0xFFE → t.pc = s0.pc + 2 ∧ t.lpc = s0.pc ∧
      ∃ c, t.fault = some ⟨c, some (s0.fetch s0.pc), s0.pc, none⟩) ∧
    (0xFFE < s0.pc.toNat → t.pc = s0.pc ∧ t.lpc = s0.lpc ∧
      t.fault = some ⟨.runaway, none, s0.pc, some s0.lpc⟩)

/-- RUNSTATE's transitions: Reset to IDLE, Load to RUNNING or, truncated, to IDLE, a core step out of RUNNING to STOPPED or
FAULTED, and no other; STOPPED and FAULTED are left only by Reset or Load (10_state.md R21). The states' names and
IDLE are the spec's own choice (D25, D32). -/
def Obligations.RunStateTransitions : Prop :=
  ∀ s t : State, step s = .next t →
    (s.agenda.head? = some .reset → t.runState = .idle) ∧
    (∀ b, s.agenda.head? = some (.load b) →
      t.runState = (if b.length ≤ 3584 then RunState.running else RunState.idle)) ∧
    (s.agenda.head? ≠ some .reset → (∀ b, s.agenda.head? ≠ some (.load b)) →
      t.runState = s.runState ∨ (s.runState = .running ∧ (t.runState = .stopped ∨ t.runState = .faulted)))

/-- REDRAW at the end of a core step is 1 exactly when the step executed CLS or DRW (10_state.md R31; 43_display.md
R143). -/
def Obligations.RedrawReportsDisplayInstructions : Prop :=
  ∀ (s s0 t : State) (tick : Bool) (rnd : Byte),
    Invokes s tick rnd s0 → step s = .next t →
    (t.redraw = true ↔
      Fetches s0 ∧
        (decodeWord s0.cfg.strictXY0 (s0.fetch s0.pc) = .ok .cls ∨
          ∃ x y n, decodeWord s0.cfg.strictXY0 (s0.fetch s0.pc) = .ok (.drw x y n)))

/-- A core step writes neither KEY nor RUNFLAG, and no step writes the parameters (10_state.md R19, R24; 00_scope.md
R7). -/
def Obligations.CoreStepKeepsKeysAndRunFlag : Prop :=
  ∀ s t : State, step s = .next t →
    t.cfg = s.cfg ∧
    ∀ tick rnd s0, Invokes s tick rnd s0 → t.key = s.key ∧ t.runFlag = s.runFlag

/-! ### The invariant -/

/-- The state after reset satisfies the invariant, and so does any state after Reset. -/
def Obligations.ResetSatisfiesInvariant : Prop :=
  State.reset.Inv ∧ ∀ s : State, s.hostReset.Inv

/-- Every step keeps the invariant: canonical memory, PC at most 0x10FE (10_state.md R14), stack slots at most 0x1000, LPC
fetchable, SND and DLY the timers' levels, FAULT a record of its cause's shape exactly in FAULTED. -/
def Obligations.EveryStepKeepsInvariant : Prop :=
  ∀ s t : State, s.Inv → step s = .next t → t.Inv

/-- Every state of every run that begins with a Reset satisfies the invariant, whatever the parameters, the queued moves
and the free inputs are; in particular a run is FAULTED exactly when it holds a FAULT record. -/
def Obligations.ReachableStatesSatisfyInvariant : Prop :=
  ∀ s : State, s.Reachable → s.Inv ∧ (s.Safe ↔ s.fault = none)

/-! ### Reset, Load, Stop, the input bridge -/

/-- Reset leaves the "after Reset" column of 10_state.md R29: everything zero, the font at 0x050, RUNSTATE IDLE, no fault
record; RUNFLAG is untouched (70_reset_and_hazards.md R210, R211). Clearing FB, I, PC and the run control, and the font's
bytes, are the spec's own choice (D23, D30, D32). -/
def Obligations.ResetLeavesTheSpecsValues : Prop :=
  ∀ (s : State) (ms : List Move), s.agenda = .reset :: ms →
    ∃ t, step s = .next t ∧
      (∀ x, t.reg x = 0) ∧ t.i = 0 ∧ t.pc = 0 ∧ t.sp = 0 ∧ (∀ k : Fin 16, t.stack[k.val] = 0) ∧ t.dt = 0 ∧ t.st = 0 ∧
      (∀ k, t.keyDown k = false) ∧ (∀ c, cell t.fb c = false) ∧ t.runState = .idle ∧ t.fault = none ∧ t.lpc = 0 ∧
      t.runFlag = s.runFlag ∧ t.redraw = false ∧ t.snd = false ∧ t.dly = false ∧
      (∀ a, a < 0x050 ∨ 0x0A0 ≤ a → t.mem.read a = 0) ∧
      (List.range 80).map (fun k => t.mem.read (0x050 + k)) =
        [0xF0, 0x90, 0x90, 0x90, 0xF0, 0x20, 0x60, 0x20, 0x20, 0x70, 0xF0, 0x10, 0xF0, 0x80, 0xF0, 0xF0, 0x10, 0xF0, 0x10, 0xF0] ++
        [0x90, 0x90, 0xF0, 0x10, 0x10, 0xF0, 0x80, 0xF0, 0x10, 0xF0, 0xF0, 0x80, 0xF0, 0x90, 0xF0, 0xF0, 0x10, 0x20, 0x40, 0x40] ++
        [0xF0, 0x90, 0xF0, 0x90, 0xF0, 0xF0, 0x90, 0xF0, 0x10, 0xF0, 0xF0, 0x90, 0xF0, 0x90, 0x90, 0xE0, 0x90, 0xE0, 0x90, 0xE0] ++
        [0xF0, 0x80, 0x80, 0x80, 0xF0, 0xE0, 0x90, 0x90, 0x90, 0xE0, 0xF0, 0x80, 0xF0, 0x80, 0xF0, 0xF0, 0x80, 0xF0, 0x80, 0x80]

/-- Load writes the image from 0x200 up to the end of memory, never wraps, sets PC, clears FAULT and LPC, starts the run or,
truncated, leaves the core IDLE, reports the bytes written, and changes nothing else (70_reset_and_hazards.md R212).
IDLE after a truncated Load is the spec's own choice (D31). -/
def Obligations.LoadPlacesTheImage : Prop :=
  ∀ (s : State) (image : List Byte) (ms : List Move), s.agenda = .load image :: ms →
    ∃ t, step s = .next t ∧
      (∀ k (h : k < image.length), k < 3584 → t.mem.read (0x200 + k) = image[k]) ∧
      (∀ a, (a < 0x200 ∨ 0x200 + min image.length 3584 ≤ a) → t.mem.read a = s.mem.read a) ∧
      t.pc = 0x0200 ∧ t.fault = none ∧ t.lpc = 0 ∧
      (image.length ≤ 3584 → t.runFlag = true ∧ t.runState = .running) ∧
      (3584 < image.length → t.runFlag = s.runFlag ∧ t.runState = .idle) ∧
      loadReport image = ⟨min image.length 3584, decide (3584 < image.length)⟩ ∧
      SameBut ([.pc, .fault, .lpc, .runFlag, .runState, .agenda] ++
        (List.range 3584).map fun k => Part.mem (0x200 + k)) s t

/-- Stop clears RUNFLAG, and a key move sets that one key flag; neither changes anything else of the core (70_reset_and_hazards.md
R214; 10_state.md R19). -/
def Obligations.StopAndKeyMovesWriteOneFlag : Prop :=
  ∀ (s : State) (ms : List Move),
    (s.agenda = .stop :: ms → ∃ t, step s = .next t ∧ t.runFlag = false ∧ t.agenda = ms ∧
      SameBut [.runFlag, .agenda] s t) ∧
    ∀ k p, s.agenda = .setKey k p :: ms → ∃ t, step s = .next t ∧ t.keyDown k = p ∧ t.agenda = ms ∧
      SameBut [.key k, .agenda] s t

/-! ### 41_arithmetic.md -/

/-- LD Vx, byte (R101). -/
def Obligations.LdImmSetsRegister : Prop :=
  ∀ (strict : Bool) (x : Reg) (nn : Byte) (s : State),
    decodeWord strict (patXK 0x6 x nn) = .ok (.ldImm x nn) ∧
    ∃ t, exec (.ldImm x nn) s = .next t ∧ t.reg x = nn ∧ SameBut [.v x] s t

/-- ADD Vx, byte: the sum mod 256, no flag (R102; that VF is left alone is the spec's own choice, D13). -/
def Obligations.AddImmAddsModulo256 : Prop :=
  ∀ (strict : Bool) (x : Reg) (nn : Byte) (s : State),
    decodeWord strict (patXK 0x7 x nn) = .ok (.addImm x nn) ∧
    ∃ t, exec (.addImm x nn) s = .next t ∧ (t.reg x).toNat = ((s.reg x).toNat + nn.toNat) % 256 ∧ SameBut [.v x] s t

/-- LD Vx, Vy (R103). -/
def Obligations.LdRegCopiesRegister : Prop :=
  ∀ (strict : Bool) (x y : Reg) (s : State),
    decodeWord strict (patXYN 0x8 x y 0x0) = .ok (.ldReg x y) ∧
    ∃ t, exec (.ldReg x y) s = .next t ∧ t.reg x = s.reg y ∧ SameBut [.v x] s t

/-- OR, AND and XOR reset VF before the operands are read, so an operand named VF is 0, and VF is 0 afterwards unless it is
the destination (R104, R105, R106; the order is the spec's own reading, D11). -/
def Obligations.LogicClearsVfThenCombines : Prop :=
  ∀ (strict : Bool) (x y : Reg) (s : State) (a b : Byte),
    decodeWord strict (patXYN 0x8 x y 0x1) = .ok (.orReg x y) ∧
    decodeWord strict (patXYN 0x8 x y 0x2) = .ok (.andReg x y) ∧
    decodeWord strict (patXYN 0x8 x y 0x3) = .ok (.xorReg x y) ∧
    (a = (if x = 15 then 0 else s.reg x) → b = (if y = 15 then 0 else s.reg y) →
      ∃ t u w, exec (.orReg x y) s = .next t ∧ exec (.andReg x y) s = .next u ∧ exec (.xorReg x y) s = .next w ∧
        t.reg x = a ||| b ∧ u.reg x = a &&& b ∧ w.reg x = a ^^^ b ∧
        (x ≠ 15 → t.reg 15 = 0 ∧ u.reg 15 = 0 ∧ w.reg 15 = 0) ∧
        SameBut [.v x, .v 15] s t ∧ SameBut [.v x, .v 15] s u ∧ SameBut [.v x, .v 15] s w)

/-- ADD Vx, Vy: the carry is written last, so it wins over a result written to VF (R107). -/
def Obligations.AddRegSetsCarry : Prop :=
  ∀ (strict : Bool) (x y : Reg) (s : State),
    decodeWord strict (patXYN 0x8 x y 0x4) = .ok (.addReg x y) ∧
    ∃ t, exec (.addReg x y) s = .next t ∧
      (x ≠ 15 → (t.reg x).toNat = ((s.reg x).toNat + (s.reg y).toNat) % 256) ∧
      t.reg 15 = (if (s.reg x).toNat + (s.reg y).toNat > 255 then 1 else 0) ∧ SameBut [.v x, .v 15] s t

/-- SUB Vx, Vy: Vx - Vy mod 256, and VF = 1 exactly when there is no borrow (R108). -/
def Obligations.SubSetsNoBorrow : Prop :=
  ∀ (strict : Bool) (x y : Reg) (s : State),
    decodeWord strict (patXYN 0x8 x y 0x5) = .ok (.sub x y) ∧
    ∃ t, exec (.sub x y) s = .next t ∧
      (x ≠ 15 → ((t.reg x).toNat : Int) = (((s.reg x).toNat : Int) - (s.reg y).toNat) % 256) ∧
      t.reg 15 = (if (s.reg x).toNat ≥ (s.reg y).toNat then 1 else 0) ∧ SameBut [.v x, .v 15] s t

/-- SUBN Vx, Vy: Vy - Vx mod 256, and VF = 1 exactly when there is no borrow (R110). -/
def Obligations.SubnSetsNoBorrow : Prop :=
  ∀ (strict : Bool) (x y : Reg) (s : State),
    decodeWord strict (patXYN 0x8 x y 0x7) = .ok (.subn x y) ∧
    ∃ t, exec (.subn x y) s = .next t ∧
      (x ≠ 15 → ((t.reg x).toNat : Int) = (((s.reg y).toNat : Int) - (s.reg x).toNat) % 256) ∧
      t.reg 15 = (if (s.reg y).toNat ≥ (s.reg x).toNat then 1 else 0) ∧ SameBut [.v x, .v 15] s t

/-- SHR: the operand SHIFT_SOURCE selects, halved; VF is its bit 0 (R109). -/
def Obligations.ShrShiftsOutLowBit : Prop :=
  ∀ (strict : Bool) (x y : Reg) (s : State),
    decodeWord strict (patXYN 0x8 x y 0x6) = .ok (.shr x y) ∧
    ∀ v, v = (if s.cfg.shiftSource = .vx then s.reg x else s.reg y) →
    ∃ t, exec (.shr x y) s = .next t ∧
      (x ≠ 15 → (t.reg x).toNat = v.toNat / 2) ∧ (t.reg 15).toNat = v.toNat % 2 ∧ SameBut [.v x, .v 15] s t

/-- SHL: the operand SHIFT_SOURCE selects, doubled mod 256; VF is its bit 7 (R111). -/
def Obligations.ShlShiftsOutHighBit : Prop :=
  ∀ (strict : Bool) (x y : Reg) (s : State),
    decodeWord strict (patXYN 0x8 x y 0xE) = .ok (.shl x y) ∧
    ∀ v, v = (if s.cfg.shiftSource = .vx then s.reg x else s.reg y) →
    ∃ t, exec (.shl x y) s = .next t ∧
      (x ≠ 15 → (t.reg x).toNat = v.toNat * 2 % 256) ∧ (t.reg 15).toNat = v.toNat / 128 ∧ SameBut [.v x, .v 15] s t

/-- RND Vx, byte: whatever the step's random input is, Vx is that byte masked by nn, so no bit outside nn is set
(R114; that the input is a free draw is the spec's own choice, D16). -/
def Obligations.RndMasksTheRandomInput : Prop :=
  ∀ (strict : Bool) (x : Reg) (nn r : Byte) (s : State),
    decodeWord strict (patXK 0xC x nn) = .ok (.rnd x nn) ∧
    (s.rndIn = r → ∃ t, exec (.rnd x nn) s = .next t ∧ t.reg x = r &&& nn ∧ t.reg x &&& ~~~nn = 0 ∧ SameBut [.v x] s t)

/-! ### 42_control_flow.md -/

/-- SYS: every family-0 word but CLS and RET; under `nop` nothing changes, under `fault` it raises UnknownOpcode with its
word and address (R121). -/
def Obligations.SysFollowsItsPolicy : Prop :=
  ∀ (strict : Bool) (nnn : Addr) (s : State),
    (nnn ≠ 0x0E0 → nnn ≠ 0x0EE → decodeWord strict (patA 0x0 nnn) = .ok (.sys nnn)) ∧
    ∃ t, exec (.sys nnn) s = .next t ∧
      (s.cfg.sysPolicy = .nop → SameBut [] s t) ∧
      (s.cfg.sysPolicy = .fault →
        t.fault = some ⟨.unknownOpcode, some (patA 0x0 nnn), s.pc - 2, none⟩ ∧ t.runState = .faulted ∧
        t.redraw = false ∧ SameBut [.fault, .runState, .redraw] s t)

/-- JP addr (R122). -/
def Obligations.JpSetsPc : Prop :=
  ∀ (strict : Bool) (nnn : Addr) (s : State),
    decodeWord strict (patA 0x1 nnn) = .ok (.jp nnn) ∧
    ∃ t, exec (.jp nnn) s = .next t ∧ t.pc.toNat = nnn.toNat ∧ SameBut [.pc] s t

/-- JP V0, addr: the sum is not masked to 12 bits (R125; the spec's own choice, D15). -/
def Obligations.JpV0AddsV0Unmasked : Prop :=
  ∀ (strict : Bool) (nnn : Addr) (s : State),
    decodeWord strict (patA 0xB nnn) = .ok (.jpV0 nnn) ∧
    ∃ t, exec (.jpV0 nnn) s = .next t ∧ t.pc.toNat = nnn.toNat + (s.reg 0).toNat ∧ SameBut [.pc] s t

/-- CALL pushes PC and jumps; with SP = 16 it raises StackOverflow and writes nothing (R123; 60_exceptions.md R181). -/
def Obligations.CallPushesOrOverflows : Prop :=
  ∀ (strict : Bool) (nnn : Addr) (s : State),
    decodeWord strict (patA 0x2 nnn) = .ok (.call nnn) ∧
    (∀ k : Fin 16, s.sp.val = k.val →
      ∃ t, exec (.call nnn) s = .next t ∧ t.stack[k.val] = s.pc ∧ t.sp.val = s.sp.val + 1 ∧ t.pc.toNat = nnn.toNat ∧
        SameBut [.stack k, .sp, .pc] s t) ∧
    (s.sp.val = 16 →
      ∃ t, exec (.call nnn) s = .next t ∧ t.fault = some ⟨.stackOverflow, some (patA 0x2 nnn), s.pc - 2, none⟩ ∧
        t.runState = .faulted ∧ t.redraw = false ∧ SameBut [.fault, .runState, .redraw] s t)

/-- RET pops the top slot into PC and leaves the slot's value; with SP = 0 it raises StackUnderflow and writes nothing
(R124; 60_exceptions.md R182). -/
def Obligations.RetPopsOrUnderflows : Prop :=
  ∀ (strict : Bool) (s : State),
    decodeWord strict 0x00EE = .ok .ret ∧
    (∀ k : Fin 16, s.sp.val = k.val + 1 →
      ∃ t, exec .ret s = .next t ∧ t.pc = s.stack[k.val] ∧ t.sp.val = k.val ∧ SameBut [.sp, .pc] s t) ∧
    (s.sp.val = 0 →
      ∃ t, exec .ret s = .next t ∧ t.fault = some ⟨.stackUnderflow, some 0x00EE, s.pc - 2, none⟩ ∧
        t.runState = .faulted ∧ t.redraw = false ∧ SameBut [.fault, .runState, .redraw] s t)

/-- From depth d, 16 - d nested CALLs succeed, and the next one raises StackOverflow (60_exceptions.md R181). -/
def Obligations.SixteenNestedCallsThenOverflow : Prop :=
  ∀ (targets : List Addr) (nnn : Addr) (s : State), s.sp.val + targets.length = 16 →
    ∃ t u, callChain s targets = .next t ∧ t.sp.val = 16 ∧ t.runState = s.runState ∧ t.fault = s.fault ∧
      exec (.call nnn) t = .next u ∧ u.runState = .faulted ∧ (∃ f, u.fault = some f ∧ f.cause = .stackOverflow) ∧
      u.stack = t.stack ∧ u.sp = t.sp ∧ u.pc = t.pc

/-- SE Vx, byte and SNE Vx, byte advance PC by 2 more exactly when the comparison holds (R126, R127). -/
def Obligations.ImmediateSkips : Prop :=
  ∀ (strict : Bool) (x : Reg) (nn : Byte) (s : State),
    decodeWord strict (patXK 0x3 x nn) = .ok (.seImm x nn) ∧ decodeWord strict (patXK 0x4 x nn) = .ok (.sneImm x nn) ∧
    ∃ t u, exec (.seImm x nn) s = .next t ∧ exec (.sneImm x nn) s = .next u ∧
      t.pc.toNat = (s.pc.toNat + (if s.reg x = nn then 2 else 0)) % 65536 ∧
      u.pc.toNat = (s.pc.toNat + (if s.reg x = nn then 0 else 2)) % 65536 ∧ SameBut [.pc] s t ∧ SameBut [.pc] s u

/-- SE Vx, Vy and SNE Vx, Vy; the low nibble of the word is ignored, or required to be 0 under STRICT_XY0 (R128, R129;
30_encoding.md R69). -/
def Obligations.RegisterSkips : Prop :=
  ∀ (strict : Bool) (x y : Reg) (n : Nibble) (s : State),
    ((strict = false ∨ n = 0) → decodeWord strict (patXYN 0x5 x y n) = .ok (.seReg x y) ∧
      decodeWord strict (patXYN 0x9 x y n) = .ok (.sneReg x y)) ∧
    (strict = true → n ≠ 0 → decodeWord strict (patXYN 0x5 x y n) = .error (.unknownOpcode (patXYN 0x5 x y n)) ∧
      decodeWord strict (patXYN 0x9 x y n) = .error (.unknownOpcode (patXYN 0x9 x y n))) ∧
    ∃ t u, exec (.seReg x y) s = .next t ∧ exec (.sneReg x y) s = .next u ∧
      t.pc.toNat = (s.pc.toNat + (if s.reg x = s.reg y then 2 else 0)) % 65536 ∧
      u.pc.toNat = (s.pc.toNat + (if s.reg x = s.reg y then 0 else 2)) % 65536 ∧ SameBut [.pc] s t ∧ SameBut [.pc] s u

/-! ### 43_display.md -/

/-- CLS clears all 2048 cells and raises the redraw flag (R141). -/
def Obligations.ClsClearsEveryCell : Prop :=
  ∀ (strict : Bool) (s : State),
    decodeWord strict 0x00E0 = .ok .cls ∧
    ∃ t, exec .cls s = .next t ∧ (∀ c, c < 2048 → cell t.fb c = false) ∧ t.redraw = true ∧
      SameBut (allCells ++ [.redraw]) s t

/-- DRW flips exactly the cells under the sprite's set bits inside the screen, the origin wrapped and the rest clipped; VF is
1 exactly when one of them was set; the redraw flag is raised (the pseudocode of R142; D12, D17, D18, and the masked
addresses, D2, are the spec's own choices). -/
def Obligations.DrwXorsTheClippedSprite : Prop :=
  ∀ (strict : Bool) (x y : Reg) (n : Nibble) (s : State),
    decodeWord strict (patXYN 0xD x y n) = .ok (.drw x y n) ∧
    ∀ x0 y0, x0 = (s.reg x).toNat % 64 → y0 = (s.reg y).toNat % 32 →
    ∃ t, exec (.drw x y n) s = .next t ∧
      (∀ c, SpriteLights s x0 y0 n.toNat c → cell t.fb c = !cell s.fb c) ∧
      (∀ c, ¬ SpriteLights s x0 y0 n.toNat c → cell t.fb c = cell s.fb c) ∧
      ((∃ c, SpriteLights s x0 y0 n.toNat c ∧ cell s.fb c = true) → t.reg 15 = 1) ∧
      ((¬ ∃ c, SpriteLights s x0 y0 n.toNat c ∧ cell s.fb c = true) → t.reg 15 = 0) ∧
      t.redraw = true ∧ SameBut (allCells ++ [.v 15, .redraw]) s t

/-- Drawing the same sprite twice at the same place restores the framebuffer; the second draw collides exactly when some
cell of the sprite inside the screen was clear before the first. With VF as x or y the place is the same when the collision
bit, which the first draw leaves in VF, selects the column or row that VF selected before. Corner case (g) of
43_display.md R142 says otherwise of cells set before the first draw; the model follows the pseudocode (assumption 10). -/
def Obligations.DrawingTwiceRestoresTheScreen : Prop :=
  ∀ (x y : Reg) (n : Nibble) (s t u : State),
    exec (.drw x y n) s = .next t → exec (.drw x y n) t = .next u →
    (x = 15 → (t.reg 15).toNat % 64 = (s.reg 15).toNat % 64) →
    (y = 15 → (t.reg 15).toNat % 32 = (s.reg 15).toNat % 32) →
    u.fb = s.fb ∧
    (u.reg 15 = 1 ↔
      ∃ c, SpriteLights s ((s.reg x).toNat % 64) ((s.reg y).toNat % 32) n.toNat c ∧ cell s.fb c = false)

/-! ### 44_keypad_timers.md -/

/-- SKP and SKNP test the key the low nibble of Vx selects (R151, R152; the mask is the spec's own choice, D19). -/
def Obligations.KeySkips : Prop :=
  ∀ (strict : Bool) (x : Reg) (k : Key) (s : State),
    decodeWord strict (patXK 0xE x 0x9E) = .ok (.skp x) ∧ decodeWord strict (patXK 0xE x 0xA1) = .ok (.sknp x) ∧
    (k.val = (s.reg x).toNat % 16 →
      ∃ t u, exec (.skp x) s = .next t ∧ exec (.sknp x) s = .next u ∧
        t.pc.toNat = (s.pc.toNat + (if s.keyDown k = true then 2 else 0)) % 65536 ∧
        u.pc.toNat = (s.pc.toNat + (if s.keyDown k = true then 0 else 2)) % 65536 ∧
        SameBut [.pc] s t ∧ SameBut [.pc] s u)

/-- LD Vx, K takes the lowest pressed key; with none pressed PC goes back by 2 and nothing else changes (R153). -/
def Obligations.WaitForKeyTakesLowestOrPolls : Prop :=
  ∀ (strict : Bool) (x : Reg) (s : State),
    decodeWord strict (patXK 0xF x 0x0A) = .ok (.ldVxK x) ∧
    (∀ k : Key, s.keyDown k = true → (∀ j, j < k → s.keyDown j = false) →
      ∃ t, exec (.ldVxK x) s = .next t ∧ (t.reg x).toNat = k.val ∧ SameBut [.v x] s t) ∧
    ((∀ k, s.keyDown k = false) →
      ∃ t, exec (.ldVxK x) s = .next t ∧ t.pc + 2 = s.pc ∧ SameBut [.pc] s t)

/-- LD Vx,DT reads DT before the step's gate; LD DT,Vx and LD ST,Vx set a timer, which the gate then counts down on a tick
and whose level DLY or SND follows (R154, R155, R156). -/
def Obligations.TimerAccess : Prop :=
  ∀ (strict tick : Bool) (x : Reg) (s : State),
    decodeWord strict (patXK 0xF x 0x07) = .ok (.ldVxDT x) ∧ decodeWord strict (patXK 0xF x 0x15) = .ok (.ldDTVx x) ∧
    decodeWord strict (patXK 0xF x 0x18) = .ok (.ldSTVx x) ∧
    (∃ t, exec (.ldVxDT x) s = .next t ∧ t.reg x = s.dt ∧ SameBut [.v x] s t) ∧
    (∃ t, exec (.ldDTVx x) s = .next t ∧ t.dt = s.reg x ∧ SameBut [.dt] s t ∧
      (s.runState = .running →
        (t.finishStep tick).dt.toNat = (s.reg x).toNat - (if tick then 1 else 0) ∧
        (t.finishStep tick).dly = decide ((t.finishStep tick).dt ≠ 0))) ∧
    (∃ t, exec (.ldSTVx x) s = .next t ∧ t.st = s.reg x ∧ SameBut [.st] s t ∧
      (s.runState = .running →
        (t.finishStep tick).st.toNat = (s.reg x).toNat - (if tick then 1 else 0) ∧
        (t.finishStep tick).snd = decide ((t.finishStep tick).st ≠ 0)))

/-! ### 45_index_memory.md -/

/-- LD I,addr, and LD F,Vx, which gives the glyph address of Vx's low nibble (R161, R163). -/
def Obligations.LdIAndLdFSetTheIndex : Prop :=
  ∀ (strict : Bool) (x : Reg) (nnn : Addr) (s : State),
    decodeWord strict (patA 0xA nnn) = .ok (.ldI nnn) ∧ decodeWord strict (patXK 0xF x 0x29) = .ok (.ldF x) ∧
    (∃ t, exec (.ldI nnn) s = .next t ∧ t.i.toNat = nnn.toNat ∧ SameBut [.i] s t) ∧
    (∃ t, exec (.ldF x) s = .next t ∧ t.i.toNat = 0x050 + (s.reg x).toNat % 16 * 5 ∧ SameBut [.i] s t)

/-- ADD I,Vx: the sum mod 65536, neither masked nor flagged (R162; no flag is the spec's own choice, D14). -/
def Obligations.AddIAddsWithoutFlag : Prop :=
  ∀ (strict : Bool) (x : Reg) (s : State),
    decodeWord strict (patXK 0xF x 0x1E) = .ok (.addI x) ∧
    ∃ t, exec (.addI x) s = .next t ∧ t.i.toNat = (s.i.toNat + (s.reg x).toNat) % 65536 ∧ SameBut [.i] s t

/-- LD B,Vx stores the three decimal digits of Vx at I, I + 1, I + 2, each address masked (R164). That the
double-dabble loop gives these digits is the spec's own derivation, checked for all 256 values (V-BCD), and the mask is its
own choice (D2; assumption 12). -/
def Obligations.BcdStoresDecimalDigits : Prop :=
  ∀ (strict : Bool) (x : Reg) (s : State),
    decodeWord strict (patXK 0xF x 0x33) = .ok (.ldB x) ∧
    ∃ t, exec (.ldB x) s = .next t ∧
      (t.mem.read (s.i.toNat % 4096)).toNat = (s.reg x).toNat / 100 ∧
      (t.mem.read ((s.i.toNat + 1) % 4096)).toNat = (s.reg x).toNat / 10 % 10 ∧
      (t.mem.read ((s.i.toNat + 2) % 4096)).toNat = (s.reg x).toNat % 10 ∧
      SameBut (blockParts s 3) s t

/-- LD [I],Vx stores V0 to Vx at I upward, each address masked; I is unchanged, or advanced under LDST_I_INCREMENT (R165).
The mask is the spec's own choice (D2; assumption 12), and so is the parameter (D10). -/
def Obligations.BlockStoreWritesRegisters : Prop :=
  ∀ (strict : Bool) (x : Reg) (s : State),
    decodeWord strict (patXK 0xF x 0x55) = .ok (.ldMemVx x) ∧
    ∃ t, exec (.ldMemVx x) s = .next t ∧
      (∀ k : Reg, k ≤ x → t.mem.read ((s.i.toNat + k.val) % 4096) = s.reg k) ∧
      t.i.toNat = (s.i.toNat + (if s.cfg.ldstIncrement then x.val + 1 else 0)) % 65536 ∧
      SameBut ([.i] ++ blockParts s (x.val + 1)) s t

/-- LD Vx,[I] loads V0 to Vx from I upward, each address masked; registers above Vx and memory are untouched; I as for the
store (R166). The mask is the spec's own choice (D2; assumption 12), and so is the parameter (D10). -/
def Obligations.BlockLoadReadsRegisters : Prop :=
  ∀ (strict : Bool) (x : Reg) (s : State),
    decodeWord strict (patXK 0xF x 0x65) = .ok (.ldVxMem x) ∧
    ∃ t, exec (.ldVxMem x) s = .next t ∧
      (∀ k : Reg, k ≤ x → t.reg k = s.mem.read ((s.i.toNat + k.val) % 4096)) ∧
      t.i.toNat = (s.i.toNat + (if s.cfg.ldstIncrement then x.val + 1 else 0)) % 65536 ∧
      SameBut ([.i] ++ (List.range (x.val + 1)).map fun k => Part.v (Fin.ofNat 16 k)) s t

/-- Bytes stored by LD [I],Vx or LD B,Vx are what a later fetch assembles, with nothing in between: both of two neighbours of
the block, or two neighbouring digits (20_memory.md R41, R44, R45, R53; R164, R165). That the fetch sees the store (D29), the
byte order (D1) and the masked store address (D2) are the spec's own choices (assumption 12). -/
def Obligations.FetchSeesStoredBytes : Prop :=
  ∀ (x : Reg) (s t : State) (a : Word), a.toNat ≤ 0xFFE →
    (exec (.ldMemVx x) s = .next t → ∀ j k : Reg, k.val = j.val + 1 → k ≤ x →
      a.toNat = (s.i.toNat + j.val) % 4096 →
      (t.fetch a).toNat = (s.reg j).toNat * 0x100 + (s.reg k).toNat) ∧
    (exec (.ldB x) s = .next t → a.toNat = s.i.toNat % 4096 →
      (t.fetch a).toNat = (s.reg x).toNat / 100 * 0x100 + (s.reg x).toNat / 10 % 10) ∧
    (exec (.ldB x) s = .next t → a.toNat = (s.i.toNat + 1) % 4096 →
      (t.fetch a).toNat = (s.reg x).toNat / 10 % 10 * 0x100 + (s.reg x).toNat % 10)

/-! ### The whole instruction set -/

/-- Every instruction completes: `exec` answers a next state in every state, and leaves RUNSTATE alone unless it raises its
one fatal condition (40_step_loop.md R87; 60_exceptions.md R186). -/
def Obligations.EveryInstructionCompletes : Prop :=
  ∀ (i : Instr) (s : State), ∃ t, exec i s = .next t ∧
    (t.runState = s.runState ∧ t.fault = s.fault ∨
      t.runState = .faulted ∧
        ((∃ nnn, i = .sys nnn) ∧ s.cfg.sysPolicy = .fault ∨ (∃ nnn, i = .call nnn) ∧ s.sp = 16 ∨ i = .ret ∧ s.sp = 0))

/-- VF changes only in the instructions of 10_state.md R12's table, in those that name it as their destination x, and in the
block load of all sixteen registers. -/
def Obligations.VfWrittenOnlyByItsInstructions : Prop :=
  ∀ (i : Instr) (s t : State), exec i s = .next t → t.reg 15 ≠ s.reg 15 →
    (∃ x y, i = .orReg x y ∨ i = .andReg x y ∨ i = .xorReg x y ∨ i = .addReg x y ∨ i = .sub x y ∨ i = .subn x y ∨
      i = .shr x y ∨ i = .shl x y) ∨
    (∃ x y n, i = .drw x y n) ∨
    (∃ nn, i = .ldImm 15 nn ∨ i = .addImm 15 nn ∨ i = .rnd 15 nn) ∨ (∃ y, i = .ldReg 15 y) ∨
    i = .ldVxDT 15 ∨ i = .ldVxK 15 ∨ i = .ldVxMem 15

/-- PC is written in the body only by JP, JP V0, CALL, RET, a taken skip, and LD Vx,K with no key pressed (10_state.md
R14). -/
def Obligations.PcWrittenOnlyByControlTransfer : Prop :=
  ∀ (i : Instr) (s t : State), exec i s = .next t → t.pc ≠ s.pc →
    (∃ nnn, i = .jp nnn ∨ i = .jpV0 nnn ∨ i = .call nnn) ∨ i = .ret ∨
    (t.pc = s.pc + 2 ∧
      ((∃ x nn, i = .seImm x nn ∨ i = .sneImm x nn) ∨ (∃ x y, i = .seReg x y ∨ i = .sneReg x y) ∨
        ∃ x, i = .skp x ∨ i = .sknp x)) ∨
    (t.pc = s.pc - 2 ∧ (∀ k, s.keyDown k = false) ∧ ∃ x, i = .ldVxK x)

/-- Memory, framebuffer, stack, timers and I change only in the instructions that 10_state.md's list of writers names (R10,
R13, R15, R17, R18; 20_memory.md R40; 43_display.md R140). -/
def Obligations.StateWrittenOnlyByItsInstructions : Prop :=
  ∀ (i : Instr) (s t : State), exec i s = .next t →
    (t.mem ≠ s.mem → ∃ x, i = .ldB x ∨ i = .ldMemVx x) ∧
    (t.fb ≠ s.fb → i = .cls ∨ ∃ x y n, i = .drw x y n) ∧
    (t.stack ≠ s.stack → ∃ nnn, i = .call nnn) ∧
    (t.sp ≠ s.sp → i = .ret ∨ ∃ nnn, i = .call nnn) ∧
    (t.dt ≠ s.dt → ∃ x, i = .ldDTVx x) ∧ (t.st ≠ s.st → ∃ x, i = .ldSTVx x) ∧
    (t.i ≠ s.i → (∃ nnn, i = .ldI nnn) ∨ (∃ x, i = .addI x ∨ i = .ldF x) ∨
      (s.cfg.ldstIncrement = true ∧ ∃ x, i = .ldMemVx x ∨ i = .ldVxMem x)) ∧
    t.key = s.key ∧ t.runFlag = s.runFlag ∧ t.lpc = s.lpc ∧ t.snd = s.snd ∧ t.dly = s.dly ∧ t.rndIn = s.rndIn ∧
    t.cfg = s.cfg ∧ t.agenda = s.agenda ∧ t.drawCount = s.drawCount

/-- No instruction reads LPC, ST, or RUNFLAG: runs that differ in them alone differ in them alone afterwards (10_state.md
R23, R18, R24). -/
def Obligations.NoInstructionReadsLpcStOrRunFlag : Prop :=
  ∀ (i : Instr) (s t : State) (l : Word) (b : Byte) (f : Bool), exec i s = .next t →
    exec i { s with lpc := l, runFlag := f } = .next { t with lpc := l, runFlag := f } ∧
    ((∀ x, i ≠ .ldSTVx x) → exec i { s with st := b } = .next { t with st := b })

/-- The random input reaches the state only through RND, and the keys only through SKP, SKNP and LD Vx,K (10_state.md R30,
R19). -/
def Obligations.InputsReachOnlyTheirReaders : Prop :=
  ∀ (i : Instr) (s t : State) (r : Byte) (ks : Vector Bool 16), exec i s = .next t →
    ((∀ x nn, i ≠ .rnd x nn) → exec i { s with rndIn := r } = .next { t with rndIn := r }) ∧
    ((∀ x, i ≠ .skp x ∧ i ≠ .sknp x ∧ i ≠ .ldVxK x) → exec i { s with key := ks } = .next { t with key := ks })

/-- Memories in canonical form that read alike are the same data, and a store keeps the form (20_memory.md R47, R49).
The form is the model's (assumption 9); the masked address is the spec's own choice (D2). -/
def Obligations.CanonicalMemoriesAreDeterminedByReads : Prop :=
  (∀ m m' : Memory, m.wf → m'.wf → (∀ a, m.read a = m'.read a) → m = m') ∧
  ∀ (s : State) (addr : Nat) (b : Byte), s.mem.wf →
    (s.memWrite addr b).mem.wf ∧ (s.memWrite addr b).mem.read (addr % 4096) = b ∧
    SameBut [.mem (addr % 4096)] s (s.memWrite addr b)
end

