-- ==== Sys2Proof/Laws/State.lean ====
section
/-! SUPPORT. One lemma per field per update of the state, each true by `rfl`, so that no later proof unfolds a record
update. -/

namespace Sys2Proof.Machine

variable (s : State)

/-! #### setReg -/

@[simp] theorem State.setReg_v (x : Reg) (b : Byte) : (s.setReg x b).v = s.v.set x.val b := rfl
@[simp] theorem State.setReg_i (x : Reg) (b : Byte) : (s.setReg x b).i = s.i := rfl
@[simp] theorem State.setReg_pc (x : Reg) (b : Byte) : (s.setReg x b).pc = s.pc := rfl
@[simp] theorem State.setReg_sp (x : Reg) (b : Byte) : (s.setReg x b).sp = s.sp := rfl
@[simp] theorem State.setReg_stack (x : Reg) (b : Byte) : (s.setReg x b).stack = s.stack := rfl
@[simp] theorem State.setReg_dt (x : Reg) (b : Byte) : (s.setReg x b).dt = s.dt := rfl
@[simp] theorem State.setReg_st (x : Reg) (b : Byte) : (s.setReg x b).st = s.st := rfl
@[simp] theorem State.setReg_key (x : Reg) (b : Byte) : (s.setReg x b).key = s.key := rfl
@[simp] theorem State.setReg_mem (x : Reg) (b : Byte) : (s.setReg x b).mem = s.mem := rfl
@[simp] theorem State.setReg_fb (x : Reg) (b : Byte) : (s.setReg x b).fb = s.fb := rfl
@[simp] theorem State.setReg_runState (x : Reg) (b : Byte) : (s.setReg x b).runState = s.runState := rfl
@[simp] theorem State.setReg_fault (x : Reg) (b : Byte) : (s.setReg x b).fault = s.fault := rfl
@[simp] theorem State.setReg_lpc (x : Reg) (b : Byte) : (s.setReg x b).lpc = s.lpc := rfl
@[simp] theorem State.setReg_runFlag (x : Reg) (b : Byte) : (s.setReg x b).runFlag = s.runFlag := rfl
@[simp] theorem State.setReg_redraw (x : Reg) (b : Byte) : (s.setReg x b).redraw = s.redraw := rfl
@[simp] theorem State.setReg_snd (x : Reg) (b : Byte) : (s.setReg x b).snd = s.snd := rfl
@[simp] theorem State.setReg_dly (x : Reg) (b : Byte) : (s.setReg x b).dly = s.dly := rfl
@[simp] theorem State.setReg_rndIn (x : Reg) (b : Byte) : (s.setReg x b).rndIn = s.rndIn := rfl
@[simp] theorem State.setReg_cfg (x : Reg) (b : Byte) : (s.setReg x b).cfg = s.cfg := rfl
@[simp] theorem State.setReg_agenda (x : Reg) (b : Byte) : (s.setReg x b).agenda = s.agenda := rfl
@[simp] theorem State.setReg_drawCount (x : Reg) (b : Byte) : (s.setReg x b).drawCount = s.drawCount := rfl

/-! #### setI -/

@[simp] theorem State.setI_v (w : Word) : (s.setI w).v = s.v := rfl
@[simp] theorem State.setI_i (w : Word) : (s.setI w).i = w := rfl
@[simp] theorem State.setI_pc (w : Word) : (s.setI w).pc = s.pc := rfl
@[simp] theorem State.setI_sp (w : Word) : (s.setI w).sp = s.sp := rfl
@[simp] theorem State.setI_stack (w : Word) : (s.setI w).stack = s.stack := rfl
@[simp] theorem State.setI_dt (w : Word) : (s.setI w).dt = s.dt := rfl
@[simp] theorem State.setI_st (w : Word) : (s.setI w).st = s.st := rfl
@[simp] theorem State.setI_key (w : Word) : (s.setI w).key = s.key := rfl
@[simp] theorem State.setI_mem (w : Word) : (s.setI w).mem = s.mem := rfl
@[simp] theorem State.setI_fb (w : Word) : (s.setI w).fb = s.fb := rfl
@[simp] theorem State.setI_runState (w : Word) : (s.setI w).runState = s.runState := rfl
@[simp] theorem State.setI_fault (w : Word) : (s.setI w).fault = s.fault := rfl
@[simp] theorem State.setI_lpc (w : Word) : (s.setI w).lpc = s.lpc := rfl
@[simp] theorem State.setI_runFlag (w : Word) : (s.setI w).runFlag = s.runFlag := rfl
@[simp] theorem State.setI_redraw (w : Word) : (s.setI w).redraw = s.redraw := rfl
@[simp] theorem State.setI_snd (w : Word) : (s.setI w).snd = s.snd := rfl
@[simp] theorem State.setI_dly (w : Word) : (s.setI w).dly = s.dly := rfl
@[simp] theorem State.setI_rndIn (w : Word) : (s.setI w).rndIn = s.rndIn := rfl
@[simp] theorem State.setI_cfg (w : Word) : (s.setI w).cfg = s.cfg := rfl
@[simp] theorem State.setI_agenda (w : Word) : (s.setI w).agenda = s.agenda := rfl
@[simp] theorem State.setI_drawCount (w : Word) : (s.setI w).drawCount = s.drawCount := rfl

/-! #### setPC -/

@[simp] theorem State.setPC_v (w : Word) : (s.setPC w).v = s.v := rfl
@[simp] theorem State.setPC_i (w : Word) : (s.setPC w).i = s.i := rfl
@[simp] theorem State.setPC_pc (w : Word) : (s.setPC w).pc = w := rfl
@[simp] theorem State.setPC_sp (w : Word) : (s.setPC w).sp = s.sp := rfl
@[simp] theorem State.setPC_stack (w : Word) : (s.setPC w).stack = s.stack := rfl
@[simp] theorem State.setPC_dt (w : Word) : (s.setPC w).dt = s.dt := rfl
@[simp] theorem State.setPC_st (w : Word) : (s.setPC w).st = s.st := rfl
@[simp] theorem State.setPC_key (w : Word) : (s.setPC w).key = s.key := rfl
@[simp] theorem State.setPC_mem (w : Word) : (s.setPC w).mem = s.mem := rfl
@[simp] theorem State.setPC_fb (w : Word) : (s.setPC w).fb = s.fb := rfl
@[simp] theorem State.setPC_runState (w : Word) : (s.setPC w).runState = s.runState := rfl
@[simp] theorem State.setPC_fault (w : Word) : (s.setPC w).fault = s.fault := rfl
@[simp] theorem State.setPC_lpc (w : Word) : (s.setPC w).lpc = s.lpc := rfl
@[simp] theorem State.setPC_runFlag (w : Word) : (s.setPC w).runFlag = s.runFlag := rfl
@[simp] theorem State.setPC_redraw (w : Word) : (s.setPC w).redraw = s.redraw := rfl
@[simp] theorem State.setPC_snd (w : Word) : (s.setPC w).snd = s.snd := rfl
@[simp] theorem State.setPC_dly (w : Word) : (s.setPC w).dly = s.dly := rfl
@[simp] theorem State.setPC_rndIn (w : Word) : (s.setPC w).rndIn = s.rndIn := rfl
@[simp] theorem State.setPC_cfg (w : Word) : (s.setPC w).cfg = s.cfg := rfl
@[simp] theorem State.setPC_agenda (w : Word) : (s.setPC w).agenda = s.agenda := rfl
@[simp] theorem State.setPC_drawCount (w : Word) : (s.setPC w).drawCount = s.drawCount := rfl

/-! #### setDT -/

@[simp] theorem State.setDT_v (b : Byte) : (s.setDT b).v = s.v := rfl
@[simp] theorem State.setDT_i (b : Byte) : (s.setDT b).i = s.i := rfl
@[simp] theorem State.setDT_pc (b : Byte) : (s.setDT b).pc = s.pc := rfl
@[simp] theorem State.setDT_sp (b : Byte) : (s.setDT b).sp = s.sp := rfl
@[simp] theorem State.setDT_stack (b : Byte) : (s.setDT b).stack = s.stack := rfl
@[simp] theorem State.setDT_dt (b : Byte) : (s.setDT b).dt = b := rfl
@[simp] theorem State.setDT_st (b : Byte) : (s.setDT b).st = s.st := rfl
@[simp] theorem State.setDT_key (b : Byte) : (s.setDT b).key = s.key := rfl
@[simp] theorem State.setDT_mem (b : Byte) : (s.setDT b).mem = s.mem := rfl
@[simp] theorem State.setDT_fb (b : Byte) : (s.setDT b).fb = s.fb := rfl
@[simp] theorem State.setDT_runState (b : Byte) : (s.setDT b).runState = s.runState := rfl
@[simp] theorem State.setDT_fault (b : Byte) : (s.setDT b).fault = s.fault := rfl
@[simp] theorem State.setDT_lpc (b : Byte) : (s.setDT b).lpc = s.lpc := rfl
@[simp] theorem State.setDT_runFlag (b : Byte) : (s.setDT b).runFlag = s.runFlag := rfl
@[simp] theorem State.setDT_redraw (b : Byte) : (s.setDT b).redraw = s.redraw := rfl
@[simp] theorem State.setDT_snd (b : Byte) : (s.setDT b).snd = s.snd := rfl
@[simp] theorem State.setDT_dly (b : Byte) : (s.setDT b).dly = s.dly := rfl
@[simp] theorem State.setDT_rndIn (b : Byte) : (s.setDT b).rndIn = s.rndIn := rfl
@[simp] theorem State.setDT_cfg (b : Byte) : (s.setDT b).cfg = s.cfg := rfl
@[simp] theorem State.setDT_agenda (b : Byte) : (s.setDT b).agenda = s.agenda := rfl
@[simp] theorem State.setDT_drawCount (b : Byte) : (s.setDT b).drawCount = s.drawCount := rfl

/-! #### setST -/

@[simp] theorem State.setST_v (b : Byte) : (s.setST b).v = s.v := rfl
@[simp] theorem State.setST_i (b : Byte) : (s.setST b).i = s.i := rfl
@[simp] theorem State.setST_pc (b : Byte) : (s.setST b).pc = s.pc := rfl
@[simp] theorem State.setST_sp (b : Byte) : (s.setST b).sp = s.sp := rfl
@[simp] theorem State.setST_stack (b : Byte) : (s.setST b).stack = s.stack := rfl
@[simp] theorem State.setST_dt (b : Byte) : (s.setST b).dt = s.dt := rfl
@[simp] theorem State.setST_st (b : Byte) : (s.setST b).st = b := rfl
@[simp] theorem State.setST_key (b : Byte) : (s.setST b).key = s.key := rfl
@[simp] theorem State.setST_mem (b : Byte) : (s.setST b).mem = s.mem := rfl
@[simp] theorem State.setST_fb (b : Byte) : (s.setST b).fb = s.fb := rfl
@[simp] theorem State.setST_runState (b : Byte) : (s.setST b).runState = s.runState := rfl
@[simp] theorem State.setST_fault (b : Byte) : (s.setST b).fault = s.fault := rfl
@[simp] theorem State.setST_lpc (b : Byte) : (s.setST b).lpc = s.lpc := rfl
@[simp] theorem State.setST_runFlag (b : Byte) : (s.setST b).runFlag = s.runFlag := rfl
@[simp] theorem State.setST_redraw (b : Byte) : (s.setST b).redraw = s.redraw := rfl
@[simp] theorem State.setST_snd (b : Byte) : (s.setST b).snd = s.snd := rfl
@[simp] theorem State.setST_dly (b : Byte) : (s.setST b).dly = s.dly := rfl
@[simp] theorem State.setST_rndIn (b : Byte) : (s.setST b).rndIn = s.rndIn := rfl
@[simp] theorem State.setST_cfg (b : Byte) : (s.setST b).cfg = s.cfg := rfl
@[simp] theorem State.setST_agenda (b : Byte) : (s.setST b).agenda = s.agenda := rfl
@[simp] theorem State.setST_drawCount (b : Byte) : (s.setST b).drawCount = s.drawCount := rfl

/-! #### draw -/

@[simp] theorem State.draw_v (f : Frame) : (s.draw f).v = s.v := rfl
@[simp] theorem State.draw_i (f : Frame) : (s.draw f).i = s.i := rfl
@[simp] theorem State.draw_pc (f : Frame) : (s.draw f).pc = s.pc := rfl
@[simp] theorem State.draw_sp (f : Frame) : (s.draw f).sp = s.sp := rfl
@[simp] theorem State.draw_stack (f : Frame) : (s.draw f).stack = s.stack := rfl
@[simp] theorem State.draw_dt (f : Frame) : (s.draw f).dt = s.dt := rfl
@[simp] theorem State.draw_st (f : Frame) : (s.draw f).st = s.st := rfl
@[simp] theorem State.draw_key (f : Frame) : (s.draw f).key = s.key := rfl
@[simp] theorem State.draw_mem (f : Frame) : (s.draw f).mem = s.mem := rfl
@[simp] theorem State.draw_fb (f : Frame) : (s.draw f).fb = f := rfl
@[simp] theorem State.draw_runState (f : Frame) : (s.draw f).runState = s.runState := rfl
@[simp] theorem State.draw_fault (f : Frame) : (s.draw f).fault = s.fault := rfl
@[simp] theorem State.draw_lpc (f : Frame) : (s.draw f).lpc = s.lpc := rfl
@[simp] theorem State.draw_runFlag (f : Frame) : (s.draw f).runFlag = s.runFlag := rfl
@[simp] theorem State.draw_redraw (f : Frame) : (s.draw f).redraw = true := rfl
@[simp] theorem State.draw_snd (f : Frame) : (s.draw f).snd = s.snd := rfl
@[simp] theorem State.draw_dly (f : Frame) : (s.draw f).dly = s.dly := rfl
@[simp] theorem State.draw_rndIn (f : Frame) : (s.draw f).rndIn = s.rndIn := rfl
@[simp] theorem State.draw_cfg (f : Frame) : (s.draw f).cfg = s.cfg := rfl
@[simp] theorem State.draw_agenda (f : Frame) : (s.draw f).agenda = s.agenda := rfl
@[simp] theorem State.draw_drawCount (f : Frame) : (s.draw f).drawCount = s.drawCount := rfl

/-! #### memWrite -/

@[simp] theorem State.memWrite_v (a : Nat) (b : Byte) : (s.memWrite a b).v = s.v := rfl
@[simp] theorem State.memWrite_i (a : Nat) (b : Byte) : (s.memWrite a b).i = s.i := rfl
@[simp] theorem State.memWrite_pc (a : Nat) (b : Byte) : (s.memWrite a b).pc = s.pc := rfl
@[simp] theorem State.memWrite_sp (a : Nat) (b : Byte) : (s.memWrite a b).sp = s.sp := rfl
@[simp] theorem State.memWrite_stack (a : Nat) (b : Byte) : (s.memWrite a b).stack = s.stack := rfl
@[simp] theorem State.memWrite_dt (a : Nat) (b : Byte) : (s.memWrite a b).dt = s.dt := rfl
@[simp] theorem State.memWrite_st (a : Nat) (b : Byte) : (s.memWrite a b).st = s.st := rfl
@[simp] theorem State.memWrite_key (a : Nat) (b : Byte) : (s.memWrite a b).key = s.key := rfl
@[simp] theorem State.memWrite_mem (a : Nat) (b : Byte) : (s.memWrite a b).mem = s.mem.write (a % memSize) b := rfl
@[simp] theorem State.memWrite_fb (a : Nat) (b : Byte) : (s.memWrite a b).fb = s.fb := rfl
@[simp] theorem State.memWrite_runState (a : Nat) (b : Byte) : (s.memWrite a b).runState = s.runState := rfl
@[simp] theorem State.memWrite_fault (a : Nat) (b : Byte) : (s.memWrite a b).fault = s.fault := rfl
@[simp] theorem State.memWrite_lpc (a : Nat) (b : Byte) : (s.memWrite a b).lpc = s.lpc := rfl
@[simp] theorem State.memWrite_runFlag (a : Nat) (b : Byte) : (s.memWrite a b).runFlag = s.runFlag := rfl
@[simp] theorem State.memWrite_redraw (a : Nat) (b : Byte) : (s.memWrite a b).redraw = s.redraw := rfl
@[simp] theorem State.memWrite_snd (a : Nat) (b : Byte) : (s.memWrite a b).snd = s.snd := rfl
@[simp] theorem State.memWrite_dly (a : Nat) (b : Byte) : (s.memWrite a b).dly = s.dly := rfl
@[simp] theorem State.memWrite_rndIn (a : Nat) (b : Byte) : (s.memWrite a b).rndIn = s.rndIn := rfl
@[simp] theorem State.memWrite_cfg (a : Nat) (b : Byte) : (s.memWrite a b).cfg = s.cfg := rfl
@[simp] theorem State.memWrite_agenda (a : Nat) (b : Byte) : (s.memWrite a b).agenda = s.agenda := rfl
@[simp] theorem State.memWrite_drawCount (a : Nat) (b : Byte) : (s.memWrite a b).drawCount = s.drawCount := rfl

/-! #### raise -/

@[simp] theorem State.raise_v (c : FatalCondition) (o : Option Word) (a : Word) (l : Option Word) : (s.raise c o a l).v = s.v := rfl
@[simp] theorem State.raise_i (c : FatalCondition) (o : Option Word) (a : Word) (l : Option Word) : (s.raise c o a l).i = s.i := rfl
@[simp] theorem State.raise_pc (c : FatalCondition) (o : Option Word) (a : Word) (l : Option Word) : (s.raise c o a l).pc = s.pc := rfl
@[simp] theorem State.raise_sp (c : FatalCondition) (o : Option Word) (a : Word) (l : Option Word) : (s.raise c o a l).sp = s.sp := rfl
@[simp] theorem State.raise_stack (c : FatalCondition) (o : Option Word) (a : Word) (l : Option Word) : (s.raise c o a l).stack = s.stack := rfl
@[simp] theorem State.raise_dt (c : FatalCondition) (o : Option Word) (a : Word) (l : Option Word) : (s.raise c o a l).dt = s.dt := rfl
@[simp] theorem State.raise_st (c : FatalCondition) (o : Option Word) (a : Word) (l : Option Word) : (s.raise c o a l).st = s.st := rfl
@[simp] theorem State.raise_key (c : FatalCondition) (o : Option Word) (a : Word) (l : Option Word) : (s.raise c o a l).key = s.key := rfl
@[simp] theorem State.raise_mem (c : FatalCondition) (o : Option Word) (a : Word) (l : Option Word) : (s.raise c o a l).mem = s.mem := rfl
@[simp] theorem State.raise_fb (c : FatalCondition) (o : Option Word) (a : Word) (l : Option Word) : (s.raise c o a l).fb = s.fb := rfl
@[simp] theorem State.raise_runState (c : FatalCondition) (o : Option Word) (a : Word) (l : Option Word) : (s.raise c o a l).runState = .faulted := rfl
@[simp] theorem State.raise_fault (c : FatalCondition) (o : Option Word) (a : Word) (l : Option Word) : (s.raise c o a l).fault = some ⟨c, o, a, l⟩ := rfl
@[simp] theorem State.raise_lpc (c : FatalCondition) (o : Option Word) (a : Word) (l : Option Word) : (s.raise c o a l).lpc = s.lpc := rfl
@[simp] theorem State.raise_runFlag (c : FatalCondition) (o : Option Word) (a : Word) (l : Option Word) : (s.raise c o a l).runFlag = s.runFlag := rfl
@[simp] theorem State.raise_redraw (c : FatalCondition) (o : Option Word) (a : Word) (l : Option Word) : (s.raise c o a l).redraw = false := rfl
@[simp] theorem State.raise_snd (c : FatalCondition) (o : Option Word) (a : Word) (l : Option Word) : (s.raise c o a l).snd = s.snd := rfl
@[simp] theorem State.raise_dly (c : FatalCondition) (o : Option Word) (a : Word) (l : Option Word) : (s.raise c o a l).dly = s.dly := rfl
@[simp] theorem State.raise_rndIn (c : FatalCondition) (o : Option Word) (a : Word) (l : Option Word) : (s.raise c o a l).rndIn = s.rndIn := rfl
@[simp] theorem State.raise_cfg (c : FatalCondition) (o : Option Word) (a : Word) (l : Option Word) : (s.raise c o a l).cfg = s.cfg := rfl
@[simp] theorem State.raise_agenda (c : FatalCondition) (o : Option Word) (a : Word) (l : Option Word) : (s.raise c o a l).agenda = s.agenda := rfl
@[simp] theorem State.raise_drawCount (c : FatalCondition) (o : Option Word) (a : Word) (l : Option Word) : (s.raise c o a l).drawCount = s.drawCount := rfl

/-! #### fetched -/

@[simp] theorem State.fetched_v (r : Byte) : (s.fetched r).v = s.v := rfl
@[simp] theorem State.fetched_i (r : Byte) : (s.fetched r).i = s.i := rfl
@[simp] theorem State.fetched_pc (r : Byte) : (s.fetched r).pc = s.pc + 2 := rfl
@[simp] theorem State.fetched_sp (r : Byte) : (s.fetched r).sp = s.sp := rfl
@[simp] theorem State.fetched_stack (r : Byte) : (s.fetched r).stack = s.stack := rfl
@[simp] theorem State.fetched_dt (r : Byte) : (s.fetched r).dt = s.dt := rfl
@[simp] theorem State.fetched_st (r : Byte) : (s.fetched r).st = s.st := rfl
@[simp] theorem State.fetched_key (r : Byte) : (s.fetched r).key = s.key := rfl
@[simp] theorem State.fetched_mem (r : Byte) : (s.fetched r).mem = s.mem := rfl
@[simp] theorem State.fetched_fb (r : Byte) : (s.fetched r).fb = s.fb := rfl
@[simp] theorem State.fetched_runState (r : Byte) : (s.fetched r).runState = s.runState := rfl
@[simp] theorem State.fetched_fault (r : Byte) : (s.fetched r).fault = s.fault := rfl
@[simp] theorem State.fetched_lpc (r : Byte) : (s.fetched r).lpc = s.pc := rfl
@[simp] theorem State.fetched_runFlag (r : Byte) : (s.fetched r).runFlag = s.runFlag := rfl
@[simp] theorem State.fetched_redraw (r : Byte) : (s.fetched r).redraw = false := rfl
@[simp] theorem State.fetched_snd (r : Byte) : (s.fetched r).snd = s.snd := rfl
@[simp] theorem State.fetched_dly (r : Byte) : (s.fetched r).dly = s.dly := rfl
@[simp] theorem State.fetched_rndIn (r : Byte) : (s.fetched r).rndIn = r := rfl
@[simp] theorem State.fetched_cfg (r : Byte) : (s.fetched r).cfg = s.cfg := rfl
@[simp] theorem State.fetched_agenda (r : Byte) : (s.fetched r).agenda = s.agenda := rfl
@[simp] theorem State.fetched_drawCount (r : Byte) : (s.fetched r).drawCount = s.drawCount := rfl

/-! #### timerGate -/

@[simp] theorem State.timerGate_v (t : Bool) : (s.timerGate t).v = s.v := rfl
@[simp] theorem State.timerGate_i (t : Bool) : (s.timerGate t).i = s.i := rfl
@[simp] theorem State.timerGate_pc (t : Bool) : (s.timerGate t).pc = s.pc := rfl
@[simp] theorem State.timerGate_sp (t : Bool) : (s.timerGate t).sp = s.sp := rfl
@[simp] theorem State.timerGate_stack (t : Bool) : (s.timerGate t).stack = s.stack := rfl
@[simp] theorem State.timerGate_dt (t : Bool) : (s.timerGate t).dt = tickTimer t s.dt := rfl
@[simp] theorem State.timerGate_st (t : Bool) : (s.timerGate t).st = tickTimer t s.st := rfl
@[simp] theorem State.timerGate_key (t : Bool) : (s.timerGate t).key = s.key := rfl
@[simp] theorem State.timerGate_mem (t : Bool) : (s.timerGate t).mem = s.mem := rfl
@[simp] theorem State.timerGate_fb (t : Bool) : (s.timerGate t).fb = s.fb := rfl
@[simp] theorem State.timerGate_runState (t : Bool) : (s.timerGate t).runState = s.runState := rfl
@[simp] theorem State.timerGate_fault (t : Bool) : (s.timerGate t).fault = s.fault := rfl
@[simp] theorem State.timerGate_lpc (t : Bool) : (s.timerGate t).lpc = s.lpc := rfl
@[simp] theorem State.timerGate_runFlag (t : Bool) : (s.timerGate t).runFlag = s.runFlag := rfl
@[simp] theorem State.timerGate_redraw (t : Bool) : (s.timerGate t).redraw = s.redraw := rfl
@[simp] theorem State.timerGate_snd (t : Bool) : (s.timerGate t).snd = s.snd := rfl
@[simp] theorem State.timerGate_dly (t : Bool) : (s.timerGate t).dly = s.dly := rfl
@[simp] theorem State.timerGate_rndIn (t : Bool) : (s.timerGate t).rndIn = s.rndIn := rfl
@[simp] theorem State.timerGate_cfg (t : Bool) : (s.timerGate t).cfg = s.cfg := rfl
@[simp] theorem State.timerGate_agenda (t : Bool) : (s.timerGate t).agenda = s.agenda := rfl
@[simp] theorem State.timerGate_drawCount (t : Bool) : (s.timerGate t).drawCount = s.drawCount := rfl

/-! #### driveLevels -/

@[simp] theorem State.driveLevels_v : s.driveLevels.v = s.v := rfl
@[simp] theorem State.driveLevels_i : s.driveLevels.i = s.i := rfl
@[simp] theorem State.driveLevels_pc : s.driveLevels.pc = s.pc := rfl
@[simp] theorem State.driveLevels_sp : s.driveLevels.sp = s.sp := rfl
@[simp] theorem State.driveLevels_stack : s.driveLevels.stack = s.stack := rfl
@[simp] theorem State.driveLevels_dt : s.driveLevels.dt = s.dt := rfl
@[simp] theorem State.driveLevels_st : s.driveLevels.st = s.st := rfl
@[simp] theorem State.driveLevels_key : s.driveLevels.key = s.key := rfl
@[simp] theorem State.driveLevels_mem : s.driveLevels.mem = s.mem := rfl
@[simp] theorem State.driveLevels_fb : s.driveLevels.fb = s.fb := rfl
@[simp] theorem State.driveLevels_runState : s.driveLevels.runState = s.runState := rfl
@[simp] theorem State.driveLevels_fault : s.driveLevels.fault = s.fault := rfl
@[simp] theorem State.driveLevels_lpc : s.driveLevels.lpc = s.lpc := rfl
@[simp] theorem State.driveLevels_runFlag : s.driveLevels.runFlag = s.runFlag := rfl
@[simp] theorem State.driveLevels_redraw : s.driveLevels.redraw = s.redraw := rfl
@[simp] theorem State.driveLevels_snd : s.driveLevels.snd = decide (s.st ≠ 0) := rfl
@[simp] theorem State.driveLevels_dly : s.driveLevels.dly = decide (s.dt ≠ 0) := rfl
@[simp] theorem State.driveLevels_rndIn : s.driveLevels.rndIn = s.rndIn := rfl
@[simp] theorem State.driveLevels_cfg : s.driveLevels.cfg = s.cfg := rfl
@[simp] theorem State.driveLevels_agenda : s.driveLevels.agenda = s.agenda := rfl
@[simp] theorem State.driveLevels_drawCount : s.driveLevels.drawCount = s.drawCount := rfl

/-! #### enterStopped -/

@[simp] theorem State.enterStopped_v : s.enterStopped.v = s.v := rfl
@[simp] theorem State.enterStopped_i : s.enterStopped.i = s.i := rfl
@[simp] theorem State.enterStopped_pc : s.enterStopped.pc = s.pc := rfl
@[simp] theorem State.enterStopped_sp : s.enterStopped.sp = s.sp := rfl
@[simp] theorem State.enterStopped_stack : s.enterStopped.stack = s.stack := rfl
@[simp] theorem State.enterStopped_dt : s.enterStopped.dt = s.dt := rfl
@[simp] theorem State.enterStopped_st : s.enterStopped.st = s.st := rfl
@[simp] theorem State.enterStopped_key : s.enterStopped.key = s.key := rfl
@[simp] theorem State.enterStopped_mem : s.enterStopped.mem = s.mem := rfl
@[simp] theorem State.enterStopped_fb : s.enterStopped.fb = s.fb := rfl
@[simp] theorem State.enterStopped_runState : s.enterStopped.runState = .stopped := rfl
@[simp] theorem State.enterStopped_fault : s.enterStopped.fault = s.fault := rfl
@[simp] theorem State.enterStopped_lpc : s.enterStopped.lpc = s.lpc := rfl
@[simp] theorem State.enterStopped_runFlag : s.enterStopped.runFlag = s.runFlag := rfl
@[simp] theorem State.enterStopped_redraw : s.enterStopped.redraw = false := rfl
@[simp] theorem State.enterStopped_snd : s.enterStopped.snd = s.snd := rfl
@[simp] theorem State.enterStopped_dly : s.enterStopped.dly = s.dly := rfl
@[simp] theorem State.enterStopped_rndIn : s.enterStopped.rndIn = s.rndIn := rfl
@[simp] theorem State.enterStopped_cfg : s.enterStopped.cfg = s.cfg := rfl
@[simp] theorem State.enterStopped_agenda : s.enterStopped.agenda = s.agenda := rfl
@[simp] theorem State.enterStopped_drawCount : s.enterStopped.drawCount = s.drawCount := rfl

/-! #### setKey -/

@[simp] theorem State.setKey_v (k : Key) (p : Bool) : (s.setKey k p).v = s.v := rfl
@[simp] theorem State.setKey_i (k : Key) (p : Bool) : (s.setKey k p).i = s.i := rfl
@[simp] theorem State.setKey_pc (k : Key) (p : Bool) : (s.setKey k p).pc = s.pc := rfl
@[simp] theorem State.setKey_sp (k : Key) (p : Bool) : (s.setKey k p).sp = s.sp := rfl
@[simp] theorem State.setKey_stack (k : Key) (p : Bool) : (s.setKey k p).stack = s.stack := rfl
@[simp] theorem State.setKey_dt (k : Key) (p : Bool) : (s.setKey k p).dt = s.dt := rfl
@[simp] theorem State.setKey_st (k : Key) (p : Bool) : (s.setKey k p).st = s.st := rfl
@[simp] theorem State.setKey_key (k : Key) (p : Bool) : (s.setKey k p).key = s.key.set k.val p := rfl
@[simp] theorem State.setKey_mem (k : Key) (p : Bool) : (s.setKey k p).mem = s.mem := rfl
@[simp] theorem State.setKey_fb (k : Key) (p : Bool) : (s.setKey k p).fb = s.fb := rfl
@[simp] theorem State.setKey_runState (k : Key) (p : Bool) : (s.setKey k p).runState = s.runState := rfl
@[simp] theorem State.setKey_fault (k : Key) (p : Bool) : (s.setKey k p).fault = s.fault := rfl
@[simp] theorem State.setKey_lpc (k : Key) (p : Bool) : (s.setKey k p).lpc = s.lpc := rfl
@[simp] theorem State.setKey_runFlag (k : Key) (p : Bool) : (s.setKey k p).runFlag = s.runFlag := rfl
@[simp] theorem State.setKey_redraw (k : Key) (p : Bool) : (s.setKey k p).redraw = s.redraw := rfl
@[simp] theorem State.setKey_snd (k : Key) (p : Bool) : (s.setKey k p).snd = s.snd := rfl
@[simp] theorem State.setKey_dly (k : Key) (p : Bool) : (s.setKey k p).dly = s.dly := rfl
@[simp] theorem State.setKey_rndIn (k : Key) (p : Bool) : (s.setKey k p).rndIn = s.rndIn := rfl
@[simp] theorem State.setKey_cfg (k : Key) (p : Bool) : (s.setKey k p).cfg = s.cfg := rfl
@[simp] theorem State.setKey_agenda (k : Key) (p : Bool) : (s.setKey k p).agenda = s.agenda := rfl
@[simp] theorem State.setKey_drawCount (k : Key) (p : Bool) : (s.setKey k p).drawCount = s.drawCount := rfl

/-! #### requestStop -/

@[simp] theorem State.requestStop_v : s.requestStop.v = s.v := rfl
@[simp] theorem State.requestStop_i : s.requestStop.i = s.i := rfl
@[simp] theorem State.requestStop_pc : s.requestStop.pc = s.pc := rfl
@[simp] theorem State.requestStop_sp : s.requestStop.sp = s.sp := rfl
@[simp] theorem State.requestStop_stack : s.requestStop.stack = s.stack := rfl
@[simp] theorem State.requestStop_dt : s.requestStop.dt = s.dt := rfl
@[simp] theorem State.requestStop_st : s.requestStop.st = s.st := rfl
@[simp] theorem State.requestStop_key : s.requestStop.key = s.key := rfl
@[simp] theorem State.requestStop_mem : s.requestStop.mem = s.mem := rfl
@[simp] theorem State.requestStop_fb : s.requestStop.fb = s.fb := rfl
@[simp] theorem State.requestStop_runState : s.requestStop.runState = s.runState := rfl
@[simp] theorem State.requestStop_fault : s.requestStop.fault = s.fault := rfl
@[simp] theorem State.requestStop_lpc : s.requestStop.lpc = s.lpc := rfl
@[simp] theorem State.requestStop_runFlag : s.requestStop.runFlag = false := rfl
@[simp] theorem State.requestStop_redraw : s.requestStop.redraw = s.redraw := rfl
@[simp] theorem State.requestStop_snd : s.requestStop.snd = s.snd := rfl
@[simp] theorem State.requestStop_dly : s.requestStop.dly = s.dly := rfl
@[simp] theorem State.requestStop_rndIn : s.requestStop.rndIn = s.rndIn := rfl
@[simp] theorem State.requestStop_cfg : s.requestStop.cfg = s.cfg := rfl
@[simp] theorem State.requestStop_agenda : s.requestStop.agenda = s.agenda := rfl
@[simp] theorem State.requestStop_drawCount : s.requestStop.drawCount = s.drawCount := rfl

/-! #### The reading accessors over those updates -/

@[simp] theorem State.setReg_keyDown (x : Reg) (b : Byte) (k : Key) : (s.setReg x b).keyDown k = s.keyDown k := rfl
@[simp] theorem State.setReg_memRead (x : Reg) (b : Byte) (a : Nat) : (s.setReg x b).memRead a = s.memRead a := rfl
@[simp] theorem State.setReg_blockAddr (x : Reg) (b : Byte) (k : Nat) : (s.setReg x b).blockAddr k = s.blockAddr k := rfl
@[simp] theorem State.memWrite_reg (a : Nat) (b : Byte) (x : Reg) : (s.memWrite a b).reg x = s.reg x := rfl
@[simp] theorem State.memWrite_blockAddr (a : Nat) (b : Byte) (k : Nat) : (s.memWrite a b).blockAddr k = s.blockAddr k := rfl
@[simp] theorem State.setI_reg (w : Word) (x : Reg) : (s.setI w).reg x = s.reg x := rfl
@[simp] theorem State.setPC_reg (w : Word) (x : Reg) : (s.setPC w).reg x = s.reg x := rfl
@[simp] theorem State.draw_reg (f : Frame) (x : Reg) : (s.draw f).reg x = s.reg x := rfl
@[simp] theorem State.fetched_reg (r : Byte) (x : Reg) : (s.fetched r).reg x = s.reg x := rfl

/-- `V[x]` after a write to some register. -/
theorem State.setReg_reg (x y : Reg) (b : Byte) : (s.setReg x b).reg y = if y = x then b else s.reg y := by
  simp only [State.reg, State.setReg, Vector.getElem_set, Fin.ext_iff, eq_comm]

@[simp] theorem State.setReg_reg_same (x : Reg) (b : Byte) : (s.setReg x b).reg x = b := by simp [State.setReg_reg]

theorem State.setReg_reg_ne (x y : Reg) (b : Byte) (h : y ≠ x) : (s.setReg x b).reg y = s.reg y := by
  simp [State.setReg_reg, h]

/-- Two register writes to one register: the later one stands. -/
theorem State.setReg_setReg (x : Reg) (a b : Byte) : (s.setReg x a).setReg x b = s.setReg x b := by
  simp [State.setReg]

end Sys2Proof.Machine
end

