-- ==== Sys2Proof/Laws/Frame.lean ====
section
/-! SUPPORT. The frame of every update, and how frames compose. -/

namespace Sys2Proof.Machine

theorem Part.same_refl (s : State) (p : Part) : p.same s s := by cases p <;> rfl

theorem Part.same_trans {s t u : State} {p : Part} (h : p.same s t) (h' : p.same t u) : p.same s u := by
  cases p <;> exact Eq.trans h' h

theorem SameBut.refl (ws : List Part) (s : State) : SameBut ws s s := fun p _ => p.same_refl s

theorem SameBut.mono {ws us : List Part} {s t : State} (h : SameBut ws s t) (hs : ws ⊆ us) : SameBut us s t :=
  fun p hp => h p fun hw => hp (hs hw)

theorem SameBut.trans {ws us : List Part} {s t u : State} (h : SameBut ws s t) (h' : SameBut us t u) :
    SameBut (ws ++ us) s u :=
  fun p hp => Part.same_trans (h p fun hw => hp (List.mem_append_left _ hw)) (h' p fun hw => hp (List.mem_append_right _ hw))

/-- Two updates that each stay inside one frame. -/
theorem SameBut.comp {ws : List Part} {s t u : State} (h : SameBut ws s t) (h' : SameBut ws t u) : SameBut ws s u :=
  fun p hp => Part.same_trans (h p hp) (h' p hp)

theorem sameBut_setReg (s : State) (x : Reg) (b : Byte) : SameBut [.v x] s (s.setReg x b) := by
  intro p hp
  cases p with
  | v y => exact State.setReg_reg_ne s x y b (by simpa using hp)
  | _ => rfl

theorem sameBut_memWrite (s : State) (a : Nat) (b : Byte) : SameBut [.mem (a % 4096)] s (s.memWrite a b) := by
  intro p hp
  cases p with
  | mem c => exact (State.read_memWrite s a c b).trans (if_neg (by simpa using hp))
  | _ => rfl

theorem sameBut_setI (s : State) (w : Word) : SameBut [.i] s (s.setI w) := by
  intro p hp
  cases p with
  | i => simp at hp
  | _ => rfl

theorem sameBut_setPC (s : State) (w : Word) : SameBut [.pc] s (s.setPC w) := by
  intro p hp
  cases p with
  | pc => simp at hp
  | _ => rfl

theorem sameBut_skipIf (s : State) (c : Bool) : SameBut [.pc] s (s.skipIf c) := by
  cases c
  · exact SameBut.refl _ s
  · exact sameBut_setPC s _

theorem sameBut_setDT (s : State) (b : Byte) : SameBut [.dt] s (s.setDT b) := by
  intro p hp
  cases p with
  | dt => simp at hp
  | _ => rfl

theorem sameBut_setST (s : State) (b : Byte) : SameBut [.st] s (s.setST b) := by
  intro p hp
  cases p with
  | st => simp at hp
  | _ => rfl

theorem mem_allCells {c : Nat} : Part.fb c ∈ allCells ↔ c < 2048 := by simp [allCells]

theorem sameBut_draw (s : State) (f : Frame) : SameBut (allCells ++ [.redraw]) s (s.draw f) := by
  intro p hp
  cases p with
  | fb c =>
    have hc : 2048 ≤ c := by
      by_contra h
      exact hp (List.mem_append_left _ (mem_allCells.2 (by omega)))
    show cell f c = cell s.fb c
    simp [cell, BitVec.getLsbD_of_ge _ _ hc]
  | redraw => simp at hp
  | _ => rfl

theorem sameBut_raise (s : State) (c : FatalCondition) (o : Option Word) (a : Word) (l : Option Word) :
    SameBut [.fault, .runState, .redraw] s (s.raise c o a l) := by
  intro p hp
  cases p with
  | fault | runState | redraw => simp at hp
  | _ => rfl

theorem sameBut_fetched (s : State) (r : Byte) : SameBut [.lpc, .pc, .redraw, .rndIn] s (s.fetched r) := by
  intro p hp
  cases p with
  | lpc | pc | redraw | rndIn => simp at hp
  | _ => rfl

theorem sameBut_finishStep (s : State) (tick : Bool) : SameBut [.dt, .st, .snd, .dly] s (s.finishStep tick) := by
  unfold State.finishStep
  split
  · intro p hp
    cases p with
    | dt | st | snd | dly => simp at hp
    | _ => rfl
  · exact SameBut.refl _ s

end Sys2Proof.Machine
end

