-- ==== Sys2Proof/Laws/Ops.lean ====
section
/-! SUPPORT. What each shared operation does, said once: stack, flags, logic, skips, timers, keys, operands. -/

namespace Sys2Proof.Machine

/-! #### Stack -/

/-- A push that answers: there was room, the slot at SP took PC, SP went up by 1, nothing else changed. -/
theorem State.push?_eq_some {s t : State} (h : s.push? = some t) :
    ∃ h16 : s.sp.val < 16, t = { s with stack := s.stack.set s.sp.val s.pc h16, sp := ⟨s.sp.val + 1, by omega⟩ } := by
  unfold State.push? at h
  split at h
  · exact ⟨‹_›, by simpa using h.symm⟩
  · cases h

theorem State.push?_of_lt {s : State} (h : s.sp.val < 16) :
    s.push? = some { s with stack := s.stack.set s.sp.val s.pc h, sp := ⟨s.sp.val + 1, by omega⟩ } :=
  dif_pos h

theorem State.push?_eq_none_iff {s : State} : s.push? = none ↔ s.sp.val = 16 := by
  have := s.sp.isLt
  unfold State.push?
  split
  · rename_i h; simp only [reduceCtorEq, false_iff]; simp only [stackDepth] at h; omega
  · rename_i h; simp only [true_iff]; simp only [stackDepth] at h; omega

/-- A pop that answers: the stack was not empty, PC took the top slot, SP went down by 1, nothing else changed. -/
theorem State.pop?_eq_some {s t : State} (h : s.pop? = some t) :
    ∃ h0 : 0 < s.sp.val, t = { s with sp := ⟨s.sp.val - 1, by omega⟩, pc := s.stack[s.sp.val - 1]'(by omega) } := by
  unfold State.pop? at h
  split at h
  · exact ⟨‹_›, by simpa using h.symm⟩
  · cases h

theorem State.pop?_of_pos {s : State} (h : 0 < s.sp.val) :
    s.pop? = some { s with sp := ⟨s.sp.val - 1, by omega⟩, pc := s.stack[s.sp.val - 1]'(by omega) } :=
  dif_pos h

theorem State.pop?_eq_none_iff {s : State} : s.pop? = none ↔ s.sp.val = 0 := by
  unfold State.pop?
  split
  · rename_i h; simp only [reduceCtorEq, false_iff]; omega
  · rename_i h; simp only [true_iff]; omega

/-! #### Flags, results, logic -/

theorem flagByte_eq (b : Bool) : flagByte b = if b then 1 else 0 := rfl

@[simp] theorem State.setResultFlag_vf (s : State) (x : Reg) (r : Byte) (f : Bool) :
    (s.setResultFlag x r f).reg 15 = flagByte f := State.setReg_reg_same _ _ _

theorem State.setResultFlag_reg (s : State) (x : Reg) (r : Byte) (f : Bool) (h : x ≠ 15) :
    (s.setResultFlag x r f).reg x = r := by
  rw [State.setResultFlag, State.setReg_reg_ne _ vf _ _ h, State.setReg_reg_same]

theorem sameBut_setResultFlag (s : State) (x : Reg) (r : Byte) (f : Bool) :
    SameBut [.v x, .v 15] s (s.setResultFlag x r f) :=
  (sameBut_setReg s x r).trans (sameBut_setReg _ vf _)

/-- What OR, AND and XOR leave in Vx: VF counts as 0 among the operands. -/
theorem State.logic_reg (s : State) (f : Byte → Byte → Byte) (x y : Reg) :
    (s.logic f x y).reg x = f (if x = 15 then 0 else s.reg x) (if y = 15 then 0 else s.reg y) := by
  rw [State.logic, State.setReg_reg_same, State.setReg_reg, State.setReg_reg]
  rfl

theorem State.logic_vf (s : State) (f : Byte → Byte → Byte) (x y : Reg) (h : x ≠ 15) :
    (s.logic f x y).reg 15 = 0 := by
  rw [State.logic, State.setReg_reg_ne _ _ _ _ h.symm]; exact State.setReg_reg_same _ _ _

theorem sameBut_logic (s : State) (f : Byte → Byte → Byte) (x y : Reg) :
    SameBut [.v x, .v 15] s (s.logic f x y) :=
  ((sameBut_setReg s vf 0).trans (sameBut_setReg _ x _)).mono (by simp [vf])

/-! #### Skips -/

theorem State.skipIf_pc (s : State) (c : Bool) :
    (s.skipIf c).pc.toNat = (s.pc.toNat + if c = true then 2 else 0) % 65536 := by
  have := s.pc.isLt
  cases c
  · show s.pc.toNat = _; simp; omega
  · show (s.pc + 2).toNat = _; simp [BitVec.toNat_add]

/-! #### Timers -/

@[simp] theorem tickTimer_toNat (tick : Bool) (t : Byte) :
    (tickTimer tick t).toNat = t.toNat - if tick = true then 1 else 0 := by
  unfold tickTimer
  split
  · rename_i h; simp [h]
  · rename_i h
    have h0 : t.toNat ≠ 0 := fun h0 => h (BitVec.eq_of_toNat_eq h0)
    have := t.isLt
    cases tick
    · simp
    · simp [BitVec.toNat_sub]; omega

theorem State.finishStep_running {s : State} (h : s.runState = .running) (tick : Bool) :
    s.finishStep tick = (s.timerGate tick).driveLevels := if_pos h

theorem State.finishStep_faulted {s : State} (h : s.runState ≠ .running) (tick : Bool) :
    s.finishStep tick = s := if_neg h

/-! #### Operands -/

theorem addrWord_toNat (nnn : Addr) : (addrWord nnn).toNat = nnn.toNat := by
  have := nnn.isLt
  simp [addrWord]; omega

theorem byteWord_toNat (b : Byte) : (byteWord b).toNat = b.toNat := by
  have := b.isLt
  simp [byteWord]; omega

theorem keyOf_val (b : Byte) : (keyOf b).val = b.toNat % 16 := by
  simp [keyOf]

theorem glyphAddr_toNat (b : Byte) : (glyphAddr b).toNat = 0x050 + b.toNat % 16 * 5 := by
  have h : (b &&& 0x0F).toNat = b.toNat % 16 := by
    rw [BitVec.toNat_and]; exact Nat.and_two_pow_sub_one_eq_mod b.toNat 4
  simp only [glyphAddr, fontBase, glyphBytes, h, BitVec.toNat_ofNat]
  omega

theorem State.memRead_blockAddr (s : State) (k : Nat) :
    s.memRead (s.blockAddr k) = s.mem.read ((s.i.toNat + k) % 4096) := rfl

theorem State.advanceI_i (s : State) (n : Nat) :
    (s.advanceI n).i.toNat = (s.i.toNat + if s.cfg.ldstIncrement = true then n else 0) % 65536 := by
  have := s.i.isLt
  unfold State.advanceI
  split
  · simp [BitVec.toNat_add]
  · show s.i.toNat = _; omega

theorem sameBut_advanceI (s : State) (n : Nat) : SameBut [.i] s (s.advanceI n) := by
  unfold State.advanceI
  split
  · exact sameBut_setI s _
  · exact SameBut.refl _ s

/-! #### Keys -/

theorem State.firstKey_none {s : State} : s.firstKey = none ↔ ∀ k, s.keyDown k = false := by
  simp [State.firstKey, List.find?_eq_none]

/-- The scan answers the pressed key below which none is pressed. -/
theorem State.firstKey_some {s : State} {k : Key} (hk : s.keyDown k = true) (hl : ∀ j, j < k → s.keyDown j = false) :
    s.firstKey = some k := by
  cases hf : s.firstKey with
  | none => rw [State.firstKey_none] at hf; simp [hf] at hk
  | some j =>
    obtain ⟨hj, as, bs, hab, has⟩ := List.find?_eq_some_iff_append.1 hf
    have hsort : (as ++ j :: bs).Pairwise (· < ·) := hab ▸ List.pairwise_lt_finRange 16
    have hkm : k ∈ as ++ j :: bs := hab ▸ List.mem_finRange k
    rcases List.mem_append.1 hkm with h | h
    · simpa [hk] using has k h
    · rcases List.mem_cons.1 h with h | h
      · rw [h]
      · have hjk : j < k := (List.pairwise_cons.1 (List.pairwise_append.1 hsort).2.1).1 k h
        simp [hl j hjk] at hj

end Sys2Proof.Machine
end

