-- ==== Sys2Proof/Laws/Blocks.lean ====
section
/-! SUPPORT. The block transfers and the BCD store: which bytes and registers they leave, and their frames. -/

namespace Sys2Proof.Machine

/-- Addresses of one block do not meet: a block is far shorter than the memory. -/
theorem blockAddr_ne {i j k : Nat} (h : j < k) (hk : k ≤ 16) : (i + j) % 4096 ≠ (i + k) % 4096 := by omega

/-! #### Store -/

@[simp] theorem State.storeBlock_reg (s : State) (n : Nat) (x : Reg) : (s.storeBlock n).reg x = s.reg x := by
  induction n with
  | zero => rfl
  | succ k ih => exact ih

@[simp] theorem State.storeBlock_i (s : State) (n : Nat) : (s.storeBlock n).i = s.i := by
  induction n with
  | zero => rfl
  | succ k ih => exact ih

@[simp] theorem State.storeBlock_cfg (s : State) (n : Nat) : (s.storeBlock n).cfg = s.cfg := by
  induction n with
  | zero => rfl
  | succ k ih => exact ih

theorem State.storeBlock_read (s : State) {n k : Nat} (hn : n ≤ 16) (hk : k < n) :
    (s.storeBlock n).mem.read ((s.i.toNat + k) % 4096) = s.reg (Fin.ofNat 16 k) := by
  induction n with
  | zero => omega
  | succ m ih =>
    rw [State.storeBlock, State.read_memWrite]
    by_cases hkm : k = m
    · subst hkm; exact if_pos rfl
    · rw [if_neg (show ¬(_ = s.blockAddr m % 4096) from blockAddr_ne (by omega) (by omega)), ih (by omega) (by omega)]

theorem sameBut_storeBlock (s : State) (n : Nat) : SameBut (blockParts s n) s (s.storeBlock n) := by
  induction n with
  | zero => exact SameBut.refl _ s
  | succ m ih =>
    have h := ih.trans (sameBut_memWrite (s.storeBlock m) (s.blockAddr m) (s.reg (Fin.ofNat 16 m)))
    rw [blockParts, List.range_succ, List.map_append]
    exact h

/-! #### Load -/

@[simp] theorem State.loadBlock_mem (s : State) (n : Nat) : (s.loadBlock n).mem = s.mem := by
  induction n with
  | zero => rfl
  | succ k ih => exact ih

@[simp] theorem State.loadBlock_i (s : State) (n : Nat) : (s.loadBlock n).i = s.i := by
  induction n with
  | zero => rfl
  | succ k ih => exact ih

@[simp] theorem State.loadBlock_cfg (s : State) (n : Nat) : (s.loadBlock n).cfg = s.cfg := by
  induction n with
  | zero => rfl
  | succ k ih => exact ih

theorem ofNat16_ne {j k : Nat} (h : j < k) (hk : k < 16) : (Fin.ofNat 16 j : Reg) ≠ Fin.ofNat 16 k := by
  intro he
  have := Fin.val_eq_of_eq he
  simp only [Fin.val_ofNat] at this
  omega

theorem State.loadBlock_reg (s : State) {n k : Nat} (hn : n ≤ 16) (hk : k < n) :
    (s.loadBlock n).reg (Fin.ofNat 16 k) = s.mem.read ((s.i.toNat + k) % 4096) := by
  induction n with
  | zero => omega
  | succ m ih =>
    rw [State.loadBlock]
    by_cases hkm : k = m
    · subst hkm; exact State.setReg_reg_same _ _ _
    · rw [State.setReg_reg_ne _ _ _ _ (ofNat16_ne (by omega) (by omega)), ih (by omega) (by omega)]

theorem sameBut_loadBlock (s : State) (n : Nat) :
    SameBut ((List.range n).map fun k => Part.v (Fin.ofNat 16 k)) s (s.loadBlock n) := by
  induction n with
  | zero => exact SameBut.refl _ s
  | succ m ih =>
    rw [List.range_succ, List.map_append]
    exact ih.trans (sameBut_setReg _ (Fin.ofNat 16 m) _)

/-! #### BCD -/

/-- Double-dabble gives the decimal digits, for every byte (45_index_memory.md R164; 95_test_vectors.md V-BCD). -/
theorem doubleDabble_digits (v : Byte) :
    (doubleDabble v).toNat = v.toNat / 100 * 0x100 + v.toNat / 10 % 10 * 0x10 + v.toNat % 10 := by
  revert v; decide +kernel

/-- A digit of the accumulator, as the byte the store writes. -/
theorem dabble_digit {acc q d o : Nat} (h : acc = q * 0x100 + d * 0x10 + o) (hq : q < 16) (hd : d < 16) (ho : o < 16) :
    acc / 256 % 16 = q ∧ acc / 16 % 16 = d ∧ acc % 16 = o := by omega

theorem dabble_hundreds (v : Byte) :
    (((doubleDabble v).extractLsb' 8 4).zeroExtend 8).toNat = v.toNat / 100 := by
  have := v.isLt
  have h := (dabble_digit (doubleDabble_digits v) (by omega) (by omega) (by omega)).1
  simp [Nat.shiftRight_eq_div_pow, h]; omega

theorem dabble_tens (v : Byte) :
    (((doubleDabble v).extractLsb' 4 4).zeroExtend 8).toNat = v.toNat / 10 % 10 := by
  have := v.isLt
  have h := (dabble_digit (doubleDabble_digits v) (by omega) (by omega) (by omega)).2.1
  simp [Nat.shiftRight_eq_div_pow, h]; omega

theorem dabble_ones (v : Byte) :
    (((doubleDabble v).extractLsb' 0 4).zeroExtend 8).toNat = v.toNat % 10 := by
  have := v.isLt
  have h := (dabble_digit (doubleDabble_digits v) (by omega) (by omega) (by omega)).2.2
  simp [h]; omega

end Sys2Proof.Machine
end

