-- ==== Sys2Proof/Laws/Decode.lean ====
section
/-! SUPPORT. The fields of an encoded word, the numbers the patterns spell, and what the decoder reads from them. -/

namespace Sys2Proof

/-! #### The fields as digits of the word's number (30_encoding.md R61) -/

theorem fieldT_toNat (w : Word) : (fieldT w).toNat = w.toNat / 0x1000 := by
  have := w.isLt
  simp only [fieldT, BitVec.extractLsb'_toNat, Nat.shiftRight_eq_div_pow]; omega

theorem fieldX_val (w : Word) : (fieldX w).val = w.toNat / 0x100 % 0x10 := by
  simp only [fieldX, BitVec.val_toFin, BitVec.extractLsb'_toNat, Nat.shiftRight_eq_div_pow]

theorem fieldY_val (w : Word) : (fieldY w).val = w.toNat / 0x10 % 0x10 := by
  simp only [fieldY, BitVec.val_toFin, BitVec.extractLsb'_toNat, Nat.shiftRight_eq_div_pow]

theorem fieldN_toNat (w : Word) : (fieldN w).toNat = w.toNat % 0x10 := by
  simp only [fieldN, BitVec.extractLsb'_toNat, Nat.shiftRight_eq_div_pow]; omega

theorem fieldNN_toNat (w : Word) : (fieldNN w).toNat = w.toNat % 0x100 := by
  simp [fieldNN]

theorem fieldNNN_toNat (w : Word) : (fieldNNN w).toNat = w.toNat % 0x1000 := by
  simp [fieldNNN]

/-! #### The number of an encoded word -/

theorem toNat_append' {m n : Nat} (a : BitVec m) (b : BitVec n) : (a ++ b).toNat = a.toNat * 2 ^ n + b.toNat := by
  rw [BitVec.toNat_append, ← Nat.shiftLeft_add_eq_or_of_lt b.isLt, Nat.shiftLeft_eq]

theorem wordA_toNat (t : Nibble) (nnn : Addr) : (wordA t nnn).toNat = t.toNat * 0x1000 + nnn.toNat := by
  simp only [wordA, toNat_append']; omega

theorem wordXK_toNat (t : Nibble) (x : Reg) (nn : Byte) :
    (wordXK t x nn).toNat = t.toNat * 0x1000 + x.val * 0x100 + nn.toNat := by
  simp only [wordXK, toNat_append', BitVec.toNat_ofFin]; omega

theorem wordXYN_toNat (t : Nibble) (x y : Reg) (n : Nibble) :
    (wordXYN t x y n).toNat = t.toNat * 0x1000 + x.val * 0x100 + y.val * 0x10 + n.toNat := by
  simp only [wordXYN, toNat_append', BitVec.toNat_ofFin]; omega

theorem wordA_eq_patA (t : Nibble) (nnn : Addr) : wordA t nnn = Machine.patA t.toNat nnn := by
  apply BitVec.eq_of_toNat_eq
  rw [wordA_toNat, Machine.patA, BitVec.toNat_ofNat, Nat.mod_eq_of_lt]
  have := t.isLt; have := nnn.isLt; omega

theorem wordXK_eq_patXK (t : Nibble) (x : Reg) (nn : Byte) : wordXK t x nn = Machine.patXK t.toNat x nn := by
  apply BitVec.eq_of_toNat_eq
  rw [wordXK_toNat, Machine.patXK, BitVec.toNat_ofNat, Nat.mod_eq_of_lt]
  have := t.isLt; have := x.isLt; have := nn.isLt; omega

theorem wordXYN_eq_patXYN (t : Nibble) (x y : Reg) (n : Nibble) :
    wordXYN t x y n = Machine.patXYN t.toNat x y n := by
  apply BitVec.eq_of_toNat_eq
  rw [wordXYN_toNat, Machine.patXYN, BitVec.toNat_ofNat, Nat.mod_eq_of_lt]
  have := t.isLt; have := x.isLt; have := y.isLt; have := n.isLt; omega

/-! #### The fields of an encoded word -/

@[simp] theorem fieldT_wordA (t : Nibble) (nnn : Addr) : fieldT (wordA t nnn) = t := by
  apply BitVec.eq_of_toNat_eq
  have := nnn.isLt; rw [fieldT_toNat, wordA_toNat]; omega

@[simp] theorem fieldNNN_wordA (t : Nibble) (nnn : Addr) : fieldNNN (wordA t nnn) = nnn := by
  apply BitVec.eq_of_toNat_eq
  have := nnn.isLt; rw [fieldNNN_toNat, wordA_toNat]; omega

@[simp] theorem fieldT_wordXK (t : Nibble) (x : Reg) (nn : Byte) : fieldT (wordXK t x nn) = t := by
  apply BitVec.eq_of_toNat_eq
  have := x.isLt; have := nn.isLt; rw [fieldT_toNat, wordXK_toNat]; omega

@[simp] theorem fieldX_wordXK (t : Nibble) (x : Reg) (nn : Byte) : fieldX (wordXK t x nn) = x := by
  apply Fin.ext
  have := x.isLt; have := nn.isLt; rw [fieldX_val, wordXK_toNat]; omega

@[simp] theorem fieldNN_wordXK (t : Nibble) (x : Reg) (nn : Byte) : fieldNN (wordXK t x nn) = nn := by
  apply BitVec.eq_of_toNat_eq
  have := nn.isLt; rw [fieldNN_toNat, wordXK_toNat]; omega

@[simp] theorem fieldT_wordXYN (t : Nibble) (x y : Reg) (n : Nibble) : fieldT (wordXYN t x y n) = t := by
  apply BitVec.eq_of_toNat_eq
  have := x.isLt; have := y.isLt; have := n.isLt; rw [fieldT_toNat, wordXYN_toNat]; omega

@[simp] theorem fieldX_wordXYN (t : Nibble) (x y : Reg) (n : Nibble) : fieldX (wordXYN t x y n) = x := by
  apply Fin.ext
  have := x.isLt; have := y.isLt; have := n.isLt; rw [fieldX_val, wordXYN_toNat]; omega

@[simp] theorem fieldY_wordXYN (t : Nibble) (x y : Reg) (n : Nibble) : fieldY (wordXYN t x y n) = y := by
  apply Fin.ext
  have := y.isLt; have := n.isLt; rw [fieldY_val, wordXYN_toNat]; omega

@[simp] theorem fieldN_wordXYN (t : Nibble) (x y : Reg) (n : Nibble) : fieldN (wordXYN t x y n) = n := by
  apply BitVec.eq_of_toNat_eq
  have := n.isLt; rw [fieldN_toNat, wordXYN_toNat]; omega

/-! #### A word is made of its fields -/

theorem wordA_fields (w : Word) : wordA (fieldT w) (fieldNNN w) = w := by
  apply BitVec.eq_of_toNat_eq
  rw [wordA_toNat, fieldT_toNat, fieldNNN_toNat]; omega

theorem wordXK_fields (w : Word) : wordXK (fieldT w) (fieldX w) (fieldNN w) = w := by
  apply BitVec.eq_of_toNat_eq
  rw [wordXK_toNat, fieldT_toNat, fieldX_val, fieldNN_toNat]; omega

theorem wordXYN_fields (w : Word) : wordXYN (fieldT w) (fieldX w) (fieldY w) (fieldN w) = w := by
  apply BitVec.eq_of_toNat_eq
  rw [wordXYN_toNat, fieldT_toNat, fieldX_val, fieldY_val, fieldN_toNat]; omega

/-- The two bytes of a word, put together again. -/
theorem decodeBytes_bytesOfWord (strict : Bool) (w : Word) (rest : List Byte) :
    decodeBytes strict (bytesOfWord w ++ rest) = (decodeWord strict w).map fun i => (i, rest) := by
  have h : wordOfBytes (w.extractLsb' 8 8) (w.extractLsb' 0 8) = w := by
    apply BitVec.eq_of_toNat_eq
    have := w.isLt
    simp only [wordOfBytes, toNat_append', BitVec.extractLsb'_toNat, Nat.shiftRight_eq_div_pow]; omega
  simp only [bytesOfWord, decodeBytes, List.cons_append, List.nil_append, h]
  cases decodeWord strict w <;> rfl

end Sys2Proof
end

