-- ==== Sys2Proof/Laws/Display.lean ====
section
/-! SUPPORT. What drawing does to the cells: a sprite toggles exactly the cells under its set bits inside the screen. -/

namespace Sys2Proof.Machine

/-- From one canvas to the next exactly the cells of `L` are flipped, and `coll` is raised exactly when one of them was
set. -/
structure Toggles (L : Nat → Prop) (cv cv' : Canvas) : Prop where
  flips : ∀ c, L c → cell cv'.fb c = !cell cv.fb c
  keeps : ∀ c, ¬ L c → cell cv'.fb c = cell cv.fb c
  coll  : cv'.coll = true ↔ cv.coll = true ∨ ∃ c, L c ∧ cell cv.fb c = true

theorem Toggles.none {L : Nat → Prop} (h : ∀ c, ¬ L c) (cv : Canvas) : Toggles L cv cv :=
  ⟨fun c hc => absurd hc (h c), fun _ _ => rfl, by simp [h]⟩

theorem Toggles.congr {L M : Nat → Prop} {cv cv' : Canvas} (h : Toggles L cv cv') (hLM : ∀ c, L c ↔ M c) :
    Toggles M cv cv' := by
  have : L = M := funext fun c => propext (hLM c)
  exact this ▸ h

/-- Two stages that flip different cells. -/
theorem Toggles.trans {L M : Nat → Prop} {cv cv' cv'' : Canvas} (h : Toggles L cv cv') (h' : Toggles M cv' cv'')
    (hd : ∀ c, L c → ¬ M c) : Toggles (fun c => L c ∨ M c) cv cv'' where
  flips c hc := by
    rcases hc with hc | hc
    · rw [h'.keeps c (hd c hc), h.flips c hc]
    · rw [h'.flips c hc, h.keeps c fun hl => hd c hl hc]
  keeps c hc := by
    rw [h'.keeps c fun hm => hc (.inr hm), h.keeps c fun hl => hc (.inl hl)]
  coll := by
    have hM : (∃ c, M c ∧ cell cv'.fb c = true) ↔ ∃ c, M c ∧ cell cv.fb c = true :=
      exists_congr fun c => and_congr_right fun hm => by rw [h.keeps c fun hl => hd c hl hm]
    rw [h'.coll, h.coll, hM, or_assoc]
    simp only [or_and_right, exists_or]

theorem cell_flipCell (f : Frame) (i c : Nat) (hi : i < 2048) :
    cell (flipCell f i) c = (cell f c ^^ decide (i = c)) := by
  simp [cell, flipCell, BitVec.getLsbD_xor, BitVec.getLsbD_twoPow, hi]

/-- A pixel of a row inside the screen. -/
theorem Canvas.pixel_toggles (cv : Canvas) (py px : Nat) (bit : Bool) (hy : py ≤ 31) :
    Toggles (fun c => px ≤ 63 ∧ bit = true ∧ c = py * 64 + px) cv (cv.pixel py px bit) := by
  unfold Canvas.pixel
  split
  · rename_i h
    have hi : py * fbWidth + px < 2048 := by simp only [fbWidth]; omega
    refine ⟨fun c hc => ?_, fun c hc => ?_, ?_⟩
    · rw [cell_flipCell _ _ _ hi, decide_eq_true (show py * fbWidth + px = c from hc.2.2.symm), Bool.xor_true]
    · rw [cell_flipCell _ _ _ hi, decide_eq_false fun he => hc ⟨h.1, h.2, he.symm⟩, Bool.xor_false]
    · simp [h.1, h.2, fbWidth]
  · rename_i h
    exact Toggles.none (fun c hc => h ⟨hc.1, hc.2.1⟩) cv

/-- One sprite row inside the screen. -/
theorem Canvas.row_toggles (cv : Canvas) (py x0 : Nat) (b : Byte) (hy : py ≤ 31) :
    Toggles (fun c => ∃ k, k < 8 ∧ x0 + k ≤ 63 ∧ b.getLsbD (7 - k) = true ∧ c = py * 64 + (x0 + k)) cv
      (cv.row py x0 b) := by
  have key : ∀ m, Toggles (fun c => ∃ k, k < m ∧ x0 + k ≤ 63 ∧ b.getLsbD (7 - k) = true ∧ c = py * 64 + (x0 + k)) cv
      ((List.range m).foldl (fun c k => c.pixel py (x0 + k) (b.getLsbD (7 - k))) cv) := by
    intro m
    induction m with
    | zero => exact Toggles.none (by simp) cv
    | succ m ih =>
      rw [List.range_succ, List.foldl_append]
      refine (ih.trans (Canvas.pixel_toggles _ py (x0 + m) (b.getLsbD (7 - m)) hy) ?_).congr fun c => ?_
      · rintro c ⟨k, hk, -, -, rfl⟩ ⟨-, -, he⟩; omega
      · constructor
        · rintro (⟨k, hk, h⟩ | h)
          · exact ⟨k, by omega, h⟩
          · exact ⟨m, by omega, h⟩
        · rintro ⟨k, hk, h⟩
          rcases Nat.lt_succ_iff_lt_or_eq.1 hk with hk | rfl
          · exact .inl ⟨k, hk, h⟩
          · exact .inr h
  exact key 8

/-- The whole sprite. -/
theorem State.drawSprite_toggles (s : State) (x0 y0 n : Nat) :
    Toggles (SpriteLights s x0 y0 n) ⟨s.fb, false⟩ (s.drawSprite x0 y0 n) := by
  induction n with
  | zero => exact Toggles.none (by rintro c ⟨r, k, hr, -⟩; omega) _
  | succ n ih =>
    rw [State.drawSprite, List.range_succ, List.foldl_append]
    change Toggles _ _ (if y0 + n ≤ 31 then (s.drawSprite x0 y0 n).row (y0 + n) x0 (s.memRead (s.blockAddr n))
      else s.drawSprite x0 y0 n)
    have hsplit : ∀ c, SpriteLights s x0 y0 (n + 1) c ↔ SpriteLights s x0 y0 n c ∨
        (y0 + n ≤ 31 ∧ ∃ k, k < 8 ∧ x0 + k ≤ 63 ∧ (s.memRead (s.blockAddr n)).getLsbD (7 - k) = true ∧
          c = (y0 + n) * 64 + (x0 + k)) := by
      intro c
      rw [State.memRead_blockAddr]
      constructor
      · rintro ⟨r, k, hr, hk, hy, hx, hc, hb⟩
        rcases Nat.lt_succ_iff_lt_or_eq.1 hr with hr | rfl
        · exact .inl ⟨r, k, hr, hk, hy, hx, hc, hb⟩
        · exact .inr ⟨hy, k, hk, hx, hb, hc⟩
      · rintro (⟨r, k, hr, h⟩ | ⟨hy, k, hk, hx, hb, hc⟩)
        · exact ⟨r, k, by omega, h⟩
        · exact ⟨n, k, by omega, hk, hy, hx, hc, hb⟩
    split
    · rename_i hy
      refine (ih.trans (Canvas.row_toggles _ (y0 + n) x0 _ hy) ?_).congr fun c => (by rw [hsplit c]; simp [hy])
      rintro c ⟨r, k, hr, hk, -, hx, rfl, -⟩ ⟨k', hk', hx', -, he⟩
      omega
    · rename_i hy
      exact ih.congr fun c => (by rw [hsplit c]; simp [hy])

end Sys2Proof.Machine
end

