-- ==== Sys2Proof/Laws/PerInstr.lean ====
section
/-! SUPPORT. The family RoundTrip: what is said of every instruction, one lemma per constructor. -/

namespace Sys2Proof.Laws

/-- The word of a well-formed instruction decodes to that instruction with every operand, under both values of
STRICT_XY0 (30_encoding.md R63). -/
def RoundTrip.Statement (i : Instr) : Prop := ∀ strict : Bool, i.wf = true → decodeWord strict (encode i) = .ok i

theorem RoundTrip.sys (nnn : Addr) : RoundTrip.Statement (.sys nnn) := by
  intro strict h
  have he : ∀ k : Addr, wordA 0#4 nnn = wordA 0#4 k → nnn = k := fun k hk => by
    rw [← fieldNNN_wordA 0#4 nnn, hk, fieldNNN_wordA]
  simp only [Instr.wf, ne_eq, decide_not, Bool.and_eq_true, Bool.not_eq_true', decide_eq_false_iff_not] at h
  have h1 : wordA 0#4 nnn ≠ 0x00E0#16 := fun hk => h.1 (he 0x0E0#12 hk)
  have h2 : wordA 0#4 nnn ≠ 0x00EE#16 := fun hk => h.2 (he 0x0EE#12 hk)
  simp [decodeWord, encode, decodeFamily0, h1, h2]

theorem RoundTrip.cls : RoundTrip.Statement .cls := by
  intro strict h
  cases strict <;> rfl

theorem RoundTrip.ret : RoundTrip.Statement .ret := by
  intro strict h
  cases strict <;> rfl

theorem RoundTrip.jp (nnn : Addr) : RoundTrip.Statement (.jp nnn) := by
  intro strict h
  simp [decodeWord, encode]

theorem RoundTrip.call (nnn : Addr) : RoundTrip.Statement (.call nnn) := by
  intro strict h
  simp [decodeWord, encode]

theorem RoundTrip.seImm (x : Reg) (nn : Byte) : RoundTrip.Statement (.seImm x nn) := by
  intro strict h
  simp [decodeWord, encode]

theorem RoundTrip.sneImm (x : Reg) (nn : Byte) : RoundTrip.Statement (.sneImm x nn) := by
  intro strict h
  simp [decodeWord, encode]

theorem RoundTrip.seReg (x : Reg) (y : Reg) : RoundTrip.Statement (.seReg x y) := by
  intro strict h
  simp [decodeWord, encode, decodeXY0]

theorem RoundTrip.ldImm (x : Reg) (nn : Byte) : RoundTrip.Statement (.ldImm x nn) := by
  intro strict h
  simp [decodeWord, encode]

theorem RoundTrip.addImm (x : Reg) (nn : Byte) : RoundTrip.Statement (.addImm x nn) := by
  intro strict h
  simp [decodeWord, encode]

theorem RoundTrip.ldReg (x : Reg) (y : Reg) : RoundTrip.Statement (.ldReg x y) := by
  intro strict h
  simp [decodeWord, encode, decodeFamily8]

theorem RoundTrip.orReg (x : Reg) (y : Reg) : RoundTrip.Statement (.orReg x y) := by
  intro strict h
  simp [decodeWord, encode, decodeFamily8]

theorem RoundTrip.andReg (x : Reg) (y : Reg) : RoundTrip.Statement (.andReg x y) := by
  intro strict h
  simp [decodeWord, encode, decodeFamily8]

theorem RoundTrip.xorReg (x : Reg) (y : Reg) : RoundTrip.Statement (.xorReg x y) := by
  intro strict h
  simp [decodeWord, encode, decodeFamily8]

theorem RoundTrip.addReg (x : Reg) (y : Reg) : RoundTrip.Statement (.addReg x y) := by
  intro strict h
  simp [decodeWord, encode, decodeFamily8]

theorem RoundTrip.sub (x : Reg) (y : Reg) : RoundTrip.Statement (.sub x y) := by
  intro strict h
  simp [decodeWord, encode, decodeFamily8]

theorem RoundTrip.shr (x : Reg) (y : Reg) : RoundTrip.Statement (.shr x y) := by
  intro strict h
  simp [decodeWord, encode, decodeFamily8]

theorem RoundTrip.subn (x : Reg) (y : Reg) : RoundTrip.Statement (.subn x y) := by
  intro strict h
  simp [decodeWord, encode, decodeFamily8]

theorem RoundTrip.shl (x : Reg) (y : Reg) : RoundTrip.Statement (.shl x y) := by
  intro strict h
  simp [decodeWord, encode, decodeFamily8]

theorem RoundTrip.sneReg (x : Reg) (y : Reg) : RoundTrip.Statement (.sneReg x y) := by
  intro strict h
  simp [decodeWord, encode, decodeXY0]

theorem RoundTrip.ldI (nnn : Addr) : RoundTrip.Statement (.ldI nnn) := by
  intro strict h
  simp [decodeWord, encode]

theorem RoundTrip.jpV0 (nnn : Addr) : RoundTrip.Statement (.jpV0 nnn) := by
  intro strict h
  simp [decodeWord, encode]

theorem RoundTrip.rnd (x : Reg) (nn : Byte) : RoundTrip.Statement (.rnd x nn) := by
  intro strict h
  simp [decodeWord, encode]

theorem RoundTrip.drw (x : Reg) (y : Reg) (n : Nibble) : RoundTrip.Statement (.drw x y n) := by
  intro strict h
  simp [decodeWord, encode]

theorem RoundTrip.skp (x : Reg) : RoundTrip.Statement (.skp x) := by
  intro strict h
  simp [decodeWord, encode, decodeFamilyE]

theorem RoundTrip.sknp (x : Reg) : RoundTrip.Statement (.sknp x) := by
  intro strict h
  simp [decodeWord, encode, decodeFamilyE]

theorem RoundTrip.ldVxDT (x : Reg) : RoundTrip.Statement (.ldVxDT x) := by
  intro strict h
  simp [decodeWord, encode, decodeFamilyF]

theorem RoundTrip.ldVxK (x : Reg) : RoundTrip.Statement (.ldVxK x) := by
  intro strict h
  simp [decodeWord, encode, decodeFamilyF]

theorem RoundTrip.ldDTVx (x : Reg) : RoundTrip.Statement (.ldDTVx x) := by
  intro strict h
  simp [decodeWord, encode, decodeFamilyF]

theorem RoundTrip.ldSTVx (x : Reg) : RoundTrip.Statement (.ldSTVx x) := by
  intro strict h
  simp [decodeWord, encode, decodeFamilyF]

theorem RoundTrip.addI (x : Reg) : RoundTrip.Statement (.addI x) := by
  intro strict h
  simp [decodeWord, encode, decodeFamilyF]

theorem RoundTrip.ldF (x : Reg) : RoundTrip.Statement (.ldF x) := by
  intro strict h
  simp [decodeWord, encode, decodeFamilyF]

theorem RoundTrip.ldB (x : Reg) : RoundTrip.Statement (.ldB x) := by
  intro strict h
  simp [decodeWord, encode, decodeFamilyF]

theorem RoundTrip.ldMemVx (x : Reg) : RoundTrip.Statement (.ldMemVx x) := by
  intro strict h
  simp [decodeWord, encode, decodeFamilyF]

theorem RoundTrip.ldVxMem (x : Reg) : RoundTrip.Statement (.ldVxMem x) := by
  intro strict h
  simp [decodeWord, encode, decodeFamilyF]

/-- The word of every well-formed instruction decodes to it. -/
theorem decode_encode (strict : Bool) (i : Instr) (h : i.wf = true) : decodeWord strict (encode i) = .ok i := by
  cases i with
  | sys nnn => exact RoundTrip.sys nnn strict h
  | cls => exact RoundTrip.cls strict h
  | ret => exact RoundTrip.ret strict h
  | jp nnn => exact RoundTrip.jp nnn strict h
  | call nnn => exact RoundTrip.call nnn strict h
  | seImm x nn => exact RoundTrip.seImm x nn strict h
  | sneImm x nn => exact RoundTrip.sneImm x nn strict h
  | seReg x y => exact RoundTrip.seReg x y strict h
  | ldImm x nn => exact RoundTrip.ldImm x nn strict h
  | addImm x nn => exact RoundTrip.addImm x nn strict h
  | ldReg x y => exact RoundTrip.ldReg x y strict h
  | orReg x y => exact RoundTrip.orReg x y strict h
  | andReg x y => exact RoundTrip.andReg x y strict h
  | xorReg x y => exact RoundTrip.xorReg x y strict h
  | addReg x y => exact RoundTrip.addReg x y strict h
  | sub x y => exact RoundTrip.sub x y strict h
  | shr x y => exact RoundTrip.shr x y strict h
  | subn x y => exact RoundTrip.subn x y strict h
  | shl x y => exact RoundTrip.shl x y strict h
  | sneReg x y => exact RoundTrip.sneReg x y strict h
  | ldI nnn => exact RoundTrip.ldI nnn strict h
  | jpV0 nnn => exact RoundTrip.jpV0 nnn strict h
  | rnd x nn => exact RoundTrip.rnd x nn strict h
  | drw x y n => exact RoundTrip.drw x y n strict h
  | skp x => exact RoundTrip.skp x strict h
  | sknp x => exact RoundTrip.sknp x strict h
  | ldVxDT x => exact RoundTrip.ldVxDT x strict h
  | ldVxK x => exact RoundTrip.ldVxK x strict h
  | ldDTVx x => exact RoundTrip.ldDTVx x strict h
  | ldSTVx x => exact RoundTrip.ldSTVx x strict h
  | addI x => exact RoundTrip.addI x strict h
  | ldF x => exact RoundTrip.ldF x strict h
  | ldB x => exact RoundTrip.ldB x strict h
  | ldMemVx x => exact RoundTrip.ldMemVx x strict h
  | ldVxMem x => exact RoundTrip.ldVxMem x strict h

/-! #### The same over the numbers the patterns spell -/

theorem decode_patA {t : Nibble} {nnn : Addr} {i : Instr} (strict : Bool) (hw : i.wf = true)
    (he : encode i = wordA t nnn) : decodeWord strict (Machine.patA t.toNat nnn) = .ok i := by
  rw [← wordA_eq_patA, ← he]; exact decode_encode strict i hw

theorem decode_patXK {t : Nibble} {x : Reg} {nn : Byte} {i : Instr} (strict : Bool) (hw : i.wf = true)
    (he : encode i = wordXK t x nn) : decodeWord strict (Machine.patXK t.toNat x nn) = .ok i := by
  rw [← wordXK_eq_patXK, ← he]; exact decode_encode strict i hw

theorem decode_patXYN {t : Nibble} {x y : Reg} {n : Nibble} {i : Instr} (strict : Bool) (hw : i.wf = true)
    (he : encode i = wordXYN t x y n) : decodeWord strict (Machine.patXYN t.toNat x y n) = .ok i := by
  rw [← wordXYN_eq_patXYN, ← he]; exact decode_encode strict i hw

end Sys2Proof.Laws
end

