-- ==== Sys2Proof/Laws/Exec.lean ====
section
/-! SUPPORT. What any instruction can do, said once: it completes; it either raises its one fatal condition or leaves the
run control alone; and the parts no instruction writes. -/

namespace Sys2Proof.Machine

/-- The instruction raises its one fatal condition in this state (60_exceptions.md R180). -/
def Raises (i : Instr) (s : State) (c : FatalCondition) : Prop :=
  ((∃ nnn, i = .sys nnn) ∧ s.cfg.sysPolicy = .fault ∧ c = .unknownOpcode) ∨
  ((∃ nnn, i = .call nnn) ∧ s.sp.val = 16 ∧ c = .stackOverflow) ∨
  (i = .ret ∧ s.sp.val = 0 ∧ c = .stackUnderflow)

/-- The instruction is a display instruction (43_display.md R143). -/
def Displays (i : Instr) : Prop := i = .cls ∨ ∃ x y n, i = .drw x y n

/-- The run control of a state that no fatal condition has touched. -/
structure Quiet (s t : State) : Prop where
  runState  : t.runState = s.runState
  fault     : t.fault = s.fault
  lpc       : t.lpc = s.lpc
  key       : t.key = s.key
  runFlag   : t.runFlag = s.runFlag
  snd       : t.snd = s.snd
  dly       : t.dly = s.dly
  rndIn     : t.rndIn = s.rndIn
  cfg       : t.cfg = s.cfg
  agenda    : t.agenda = s.agenda
  drawCount : t.drawCount = s.drawCount

theorem Quiet.refl (s : State) : Quiet s s := ⟨rfl, rfl, rfl, rfl, rfl, rfl, rfl, rfl, rfl, rfl, rfl⟩

theorem Quiet.trans {s t u : State} (h : Quiet s t) (h' : Quiet t u) : Quiet s u :=
  ⟨h'.1.trans h.1, h'.2.trans h.2, h'.3.trans h.3, h'.4.trans h.4, h'.5.trans h.5, h'.6.trans h.6, h'.7.trans h.7,
    h'.8.trans h.8, h'.9.trans h.9, h'.10.trans h.10, h'.11.trans h.11⟩

theorem quiet_skipIf (s : State) (c : Bool) : Quiet s (s.skipIf c) := by
  cases c <;> exact ⟨rfl, rfl, rfl, rfl, rfl, rfl, rfl, rfl, rfl, rfl, rfl⟩

theorem quiet_storeBlock (s : State) (n : Nat) : Quiet s (s.storeBlock n) := by
  induction n with
  | zero => exact Quiet.refl s
  | succ n ih => exact ih.trans ⟨rfl, rfl, rfl, rfl, rfl, rfl, rfl, rfl, rfl, rfl, rfl⟩

theorem quiet_loadBlock (s : State) (n : Nat) : Quiet s (s.loadBlock n) := by
  induction n with
  | zero => exact Quiet.refl s
  | succ n ih => exact ih.trans ⟨rfl, rfl, rfl, rfl, rfl, rfl, rfl, rfl, rfl, rfl, rfl⟩

theorem quiet_advanceI (s : State) (n : Nat) : Quiet s (s.advanceI n) := by
  unfold State.advanceI
  split <;> exact ⟨rfl, rfl, rfl, rfl, rfl, rfl, rfl, rfl, rfl, rfl, rfl⟩

/-- Every instruction answers a next state. -/
theorem exec_next (i : Instr) (s : State) : ∃ t, exec i s = .next t := by
  cases i with
  | sys nnn => simp only [exec, execSys]; split <;> exact ⟨_, rfl⟩
  | call nnn => simp only [exec, execCall]; split <;> exact ⟨_, rfl⟩
  | ret => simp only [exec, execRet]; split <;> exact ⟨_, rfl⟩
  | ldVxK x => simp only [exec, execLdVxK]; split <;> exact ⟨_, rfl⟩
  | _ => exact ⟨_, rfl⟩

/-- What any instruction does to the run control: it raises its one fatal condition, with its own word, and changes
nothing else; or it is quiet. -/
theorem exec_cases {i : Instr} {s t : State} (h : exec i s = .next t) :
    (∃ c, Raises i s c ∧ t = s.raiseBody c (encode i)) ∨ ((∀ c, ¬ Raises i s c) ∧ Quiet s t) := by
  cases i with
  | sys nnn =>
    simp only [exec, execSys] at h
    split at h <;> rename_i hp <;> injection h with h <;> subst h
    · exact .inr ⟨fun c hc => by simp [Raises, hp] at hc, Quiet.refl s⟩
    · exact .inl ⟨_, .inl ⟨⟨nnn, rfl⟩, hp, rfl⟩, rfl⟩
  | call nnn =>
    simp only [exec, execCall] at h
    split at h <;> rename_i hp <;> injection h with h <;> subst h
    · obtain ⟨h16, rfl⟩ := State.push?_eq_some hp
      exact .inr ⟨fun c hc => by simp [Raises] at hc; omega, ⟨rfl, rfl, rfl, rfl, rfl, rfl, rfl, rfl, rfl, rfl, rfl⟩⟩
    · exact .inl ⟨_, .inr (.inl ⟨⟨nnn, rfl⟩, State.push?_eq_none_iff.1 hp, rfl⟩), rfl⟩
  | ret =>
    simp only [exec, execRet] at h
    split at h <;> rename_i hp <;> injection h with h <;> subst h
    · obtain ⟨h0, rfl⟩ := State.pop?_eq_some hp
      exact .inr ⟨fun c hc => by simp [Raises] at hc; omega, ⟨rfl, rfl, rfl, rfl, rfl, rfl, rfl, rfl, rfl, rfl, rfl⟩⟩
    · exact .inl ⟨_, .inr (.inr ⟨rfl, State.pop?_eq_none_iff.1 hp, rfl⟩), rfl⟩
  | ldVxK x =>
    simp only [exec, execLdVxK] at h
    refine .inr ⟨fun c hc => by simp [Raises] at hc, ?_⟩
    split at h <;> injection h with h <;> subst h <;> exact ⟨rfl, rfl, rfl, rfl, rfl, rfl, rfl, rfl, rfl, rfl, rfl⟩
  | seImm | sneImm | seReg | sneReg | skp | sknp =>
    injection h with h; subst h
    exact .inr ⟨fun c hc => by simp [Raises] at hc, quiet_skipIf s _⟩
  | ldMemVx x =>
    injection h with h; subst h
    exact .inr ⟨fun c hc => by simp [Raises] at hc, (quiet_storeBlock s _).trans (quiet_advanceI _ _)⟩
  | ldVxMem x =>
    injection h with h; subst h
    exact .inr ⟨fun c hc => by simp [Raises] at hc, (quiet_loadBlock s _).trans (quiet_advanceI _ _)⟩
  | _ =>
    injection h with h; subst h
    exact .inr ⟨fun c hc => by simp [Raises] at hc, ⟨rfl, rfl, rfl, rfl, rfl, rfl, rfl, rfl, rfl, rfl, rfl⟩⟩

@[simp] theorem State.storeBlock_redraw (s : State) (n : Nat) : (s.storeBlock n).redraw = s.redraw := by
  induction n with
  | zero => rfl
  | succ k ih => exact ih

@[simp] theorem State.loadBlock_redraw (s : State) (n : Nat) : (s.loadBlock n).redraw = s.redraw := by
  induction n with
  | zero => rfl
  | succ k ih => exact ih

theorem State.skipIf_redraw (s : State) (c : Bool) : (s.skipIf c).redraw = s.redraw := by cases c <;> rfl

theorem State.advanceI_redraw (s : State) (n : Nat) : (s.advanceI n).redraw = s.redraw := by
  unfold State.advanceI; split <;> rfl

/-- The redraw flag, entered down, is up afterwards exactly for CLS and DRW. -/
theorem exec_redraw {i : Instr} {s t : State} (h : exec i s = .next t) (hs : s.redraw = false) :
    t.redraw = true ↔ Displays i := by
  cases i with
  | sys nnn =>
    simp only [exec, execSys] at h
    split at h <;> injection h with h <;> subst h <;> simp [Displays, hs, State.raiseBody]
  | call nnn =>
    simp only [exec, execCall] at h
    split at h <;> rename_i hp <;> injection h with h <;> subst h
    · obtain ⟨h16, rfl⟩ := State.push?_eq_some hp
      simp [Displays, hs]
    · simp [Displays, State.raiseBody]
  | ret =>
    simp only [exec, execRet] at h
    split at h <;> rename_i hp <;> injection h with h <;> subst h
    · obtain ⟨h0, rfl⟩ := State.pop?_eq_some hp
      simp [Displays, hs]
    · simp [Displays, State.raiseBody]
  | ldVxK x =>
    simp only [exec, execLdVxK] at h
    split at h <;> injection h with h <;> subst h <;> simp [Displays, hs]
  | seImm | sneImm | seReg | sneReg | skp | sknp =>
    injection h with h; subst h; simp [Displays, hs, State.skipIf_redraw]
  | ldMemVx x | ldVxMem x =>
    injection h with h; subst h; simp [Displays, hs, State.advanceI_redraw]
  | _ => injection h with h; subst h; simp [Displays, hs, State.setResultFlag, State.logic]

/-! #### The decoder's word -/

/-- The encoder as a left inverse, word by word (30_encoding.md R63, R69). -/
theorem encode_of_decode {strict : Bool} {w : Word} {i : Instr} (h : decodeWord strict w = .ok i) :
    i.wf = true ∧ (encode i = w ∨
      (strict = false ∧ (fieldT w = 0x5#4 ∨ fieldT w = 0x9#4) ∧ encode i = wordXYN (fieldT w) (fieldX w) (fieldY w) 0)) := by
  have ht : ∀ k : Nat, (hk : k < 16) → (fieldT w).toNat = k → fieldT w = BitVec.ofNat 4 k := fun k hk he => by
    apply BitVec.eq_of_toNat_eq; rw [he, BitVec.toNat_ofNat, Nat.mod_eq_of_lt hk]
  have hn : ∀ k : Nat, (hk : k < 16) → (fieldN w).toNat = k → fieldN w = BitVec.ofNat 4 k := fun k hk he => by
    apply BitVec.eq_of_toNat_eq; rw [he, BitVec.toNat_ofNat, Nat.mod_eq_of_lt hk]
  have hnn : ∀ k : Nat, (hk : k < 256) → (fieldNN w).toNat = k → fieldNN w = BitVec.ofNat 8 k := fun k hk he => by
    apply BitVec.eq_of_toNat_eq; rw [he, BitVec.toNat_ofNat, Nat.mod_eq_of_lt hk]
  have hA := wordA_fields w
  have hXK := wordXK_fields w
  have hXYN := wordXYN_fields w
  have hlt : (fieldT w).toNat < 16 := (fieldT w).isLt
  unfold decodeWord at h
  split at h
  case _ h0 =>
    rw [ht 0 (by decide) h0] at hA
    unfold decodeFamily0 at h
    split at h
    · rename_i hw; injection h with h; subst h; exact ⟨rfl, .inl hw.symm⟩
    · split at h
      · rename_i hw; injection h with h; subst h; exact ⟨rfl, .inl hw.symm⟩
      · rename_i h1 h2; injection h with h; subst h
        refine ⟨?_, .inl hA⟩
        simp only [Instr.wf, ne_eq, decide_not, Bool.and_eq_true, Bool.not_eq_true', decide_eq_false_iff_not]
        constructor
        · intro he; rw [he] at hA; exact h1 (hA ▸ rfl)
        · intro he; rw [he] at hA; exact h2 (hA ▸ rfl)
  case _ h0 => injection h with h; subst h; rw [ht _ (by decide) h0] at hA; exact ⟨rfl, .inl hA⟩
  case _ h0 => injection h with h; subst h; rw [ht _ (by decide) h0] at hA; exact ⟨rfl, .inl hA⟩
  case _ h0 => injection h with h; subst h; rw [ht _ (by decide) h0] at hXK; exact ⟨rfl, .inl hXK⟩
  case _ h0 => injection h with h; subst h; rw [ht _ (by decide) h0] at hXK; exact ⟨rfl, .inl hXK⟩
  case _ h0 =>
    have h5 := ht _ (by decide) h0
    unfold decodeXY0 at h
    split at h
    · cases h
    · rename_i hs; injection h with h; subst h
      refine ⟨rfl, ?_⟩
      cases strict
      · exact .inr ⟨rfl, .inl h5, by rw [h5]; rfl⟩
      · refine .inl ?_
        have hz : fieldN w = 0#4 := by simpa using hs
        rw [h5, hz] at hXYN; exact hXYN
  case _ h0 => injection h with h; subst h; rw [ht _ (by decide) h0] at hXK; exact ⟨rfl, .inl hXK⟩
  case _ h0 => injection h with h; subst h; rw [ht _ (by decide) h0] at hXK; exact ⟨rfl, .inl hXK⟩
  case _ h0 =>
    rw [ht _ (by decide) h0] at hXYN
    unfold decodeFamily8 at h
    split at h
    case h_10 => cases h
    all_goals
      rename_i hk; injection h with h; subst h
      rw [hn _ (by decide) hk] at hXYN; exact ⟨rfl, .inl hXYN⟩
  case _ h0 =>
    have h9 := ht _ (by decide) h0
    unfold decodeXY0 at h
    split at h
    · cases h
    · rename_i hs; injection h with h; subst h
      refine ⟨rfl, ?_⟩
      cases strict
      · exact .inr ⟨rfl, .inr h9, by rw [h9]; rfl⟩
      · refine .inl ?_
        have hz : fieldN w = 0#4 := by simpa using hs
        rw [h9, hz] at hXYN; exact hXYN
  case _ h0 => injection h with h; subst h; rw [ht _ (by decide) h0] at hA; exact ⟨rfl, .inl hA⟩
  case _ h0 => injection h with h; subst h; rw [ht _ (by decide) h0] at hA; exact ⟨rfl, .inl hA⟩
  case _ h0 => injection h with h; subst h; rw [ht _ (by decide) h0] at hXK; exact ⟨rfl, .inl hXK⟩
  case _ h0 => injection h with h; subst h; rw [ht _ (by decide) h0] at hXYN; exact ⟨rfl, .inl hXYN⟩
  case _ h0 =>
    rw [ht _ (by decide) h0] at hXK
    unfold decodeFamilyE at h
    split at h
    case h_3 => cases h
    all_goals
      rename_i hk; injection h with h; subst h
      rw [hnn _ (by decide) hk] at hXK; exact ⟨rfl, .inl hXK⟩
  case _ =>
    have h15 : (fieldT w).toNat = 15 := by clear ht hn hnn; simp only [imp_false] at *; omega
    rw [ht _ (by decide) h15] at hXK
    unfold decodeFamilyF at h
    split at h
    case h_10 => cases h
    all_goals
      rename_i hk; injection h with h; subst h
      rw [hnn _ (by decide) hk] at hXK; exact ⟨rfl, .inl hXK⟩

/-- The words of the instructions that can raise a fatal condition are encoded exactly. -/
theorem encode_of_raises {strict : Bool} {w : Word} {i : Instr} {s : State} {c : FatalCondition}
    (h : decodeWord strict w = .ok i) (hr : Raises i s c) : encode i = w := by
  rcases (encode_of_decode h).2 with he | ⟨hs, ht, he⟩
  · exact he
  · exfalso
    have : fieldT (encode i) = fieldT w := by rw [he, fieldT_wordXYN]
    rcases hr with ⟨⟨n, rfl⟩, -⟩ | ⟨⟨n, rfl⟩, -⟩ | ⟨rfl, -⟩
    · rw [encode, fieldT_wordA] at this; rcases ht with ht | ht <;> rw [ht] at this <;> exact absurd this (by decide)
    · rw [encode, fieldT_wordA] at this; rcases ht with ht | ht <;> rw [ht] at this <;> exact absurd this (by decide)
    · rcases ht with ht | ht <;> rw [ht] at this <;> exact absurd this (by decide)

end Sys2Proof.Machine
end

