-- ==== Sys2Proof/Laws/Step.lean ====
section
/-! SUPPORT. What one step can do, said once, for a core step and for every move; and that the invariant's parts are kept
by every instruction. -/

namespace Sys2Proof.Machine

theorem State.fetched_instrAddr (s : State) (r : Byte) : (s.fetched r).instrAddr = s.pc := by
  simp [State.instrAddr]

/-- The word a core step fetches. -/
abbrev State.fetchedWord (s : State) : Word := s.fetch s.pc

theorem coreStep_atRest {s : State} (h : s.runState ≠ .running) (tick : Bool) (rnd : Byte) :
    coreStep tick rnd s = .fault (.coreAtRest s.runState) := if_pos h

theorem coreStep_stop {s : State} (h : s.runState = .running) (hf : s.runFlag = false) (tick : Bool) (rnd : Byte) :
    coreStep tick rnd s = .next s.enterStopped := by
  rw [coreStep, if_neg (not_not.2 h), if_pos hf]

theorem coreStep_runaway {s : State} (h : s.runState = .running) (hf : s.runFlag = true) (hp : 0xFFE < s.pc.toNat)
    (tick : Bool) (rnd : Byte) : coreStep tick rnd s = .next s.raiseRunaway := by
  rw [coreStep, if_neg (not_not.2 h), if_neg (by simp [hf]), if_pos (show lastFetch < _ from hp)]

theorem coreStep_decode {s : State} (h : Fetches s) (tick : Bool) (rnd : Byte) :
    coreStep tick rnd s =
      match decodeWord s.cfg.strictXY0 s.fetchedWord with
      | .ok i    => runBody i tick (s.fetched rnd)
      | .error _ => .next ((s.fetched rnd).raise .unknownOpcode (some s.fetchedWord) s.pc none) := by
  obtain ⟨hr, hf, hp⟩ := h
  have hl : ¬ lastFetch < s.pc.toNat := by simp only [lastFetch]; omega
  refine (if_neg (not_not.2 hr)).trans ((if_neg (by simp [hf])).trans ((if_neg hl).trans ?_))
  rfl

/-- The five ways a core step ends. -/
inductive CoreStepEnds (tick : Bool) (rnd : Byte) (s t : State) : Prop where
  /-- S1: stopped. -/
  | stopped (hf : s.runFlag = false) (ht : t = s.enterStopped)
  /-- S2: Runaway. -/
  | runaway (hf : s.runFlag = true) (hp : 0xFFE < s.pc.toNat) (ht : t = s.raiseRunaway)
  /-- S5: an illegal word. -/
  | illegal (hs : Fetches s) (e : Reject) (hd : decodeWord s.cfg.strictXY0 s.fetchedWord = .error e)
      (ht : t = (s.fetched rnd).raise .unknownOpcode (some s.fetchedWord) s.pc none)
  /-- S6: the body raises its condition. -/
  | raised (hs : Fetches s) (i : Instr) (c : FatalCondition) (hd : decodeWord s.cfg.strictXY0 s.fetchedWord = .ok i)
      (hr : Raises i s c) (ht : t = (s.fetched rnd).raise c (some s.fetchedWord) s.pc none)
  /-- S6 to S8: the instruction completes. -/
  | done (hs : Fetches s) (i : Instr) (u : State) (hd : decodeWord s.cfg.strictXY0 s.fetchedWord = .ok i)
      (hn : ∀ c, ¬ Raises i s c) (hu : exec i (s.fetched rnd) = .next u) (hq : Quiet (s.fetched rnd) u)
      (ht : t = (u.timerGate tick).driveLevels)

/-- A core step that answers was taken in RUNNING and ended in one of the five ways. -/
theorem coreStep_cases {tick : Bool} {rnd : Byte} {s t : State} (h : coreStep tick rnd s = .next t) :
    s.runState = .running ∧ CoreStepEnds tick rnd s t := by
  by_cases hr : s.runState = .running
  swap
  · rw [coreStep_atRest hr] at h; cases h
  refine ⟨hr, ?_⟩
  cases hf : s.runFlag with
  | false => rw [coreStep_stop hr hf] at h; injection h with h; exact .stopped hf h.symm
  | true =>
    by_cases hp : 0xFFE < s.pc.toNat
    · rw [coreStep_runaway hr hf hp] at h; injection h with h; exact .runaway hf hp h.symm
    · have hs : Fetches s := ⟨hr, hf, by omega⟩
      rw [coreStep_decode hs] at h
      cases hd : decodeWord s.cfg.strictXY0 s.fetchedWord with
      | error e => rw [hd] at h; injection h with h; exact .illegal hs e hd h.symm
      | ok i =>
        rw [hd] at h
        obtain ⟨u, hu⟩ := exec_next i (s.fetched rnd)
        simp only [runBody, hu] at h
        injection h with h
        rcases exec_cases hu with ⟨c, hc, rfl⟩ | ⟨hn, hq⟩
        · refine .raised hs i c hd hc ?_
          rw [← h, State.finishStep_faulted (by simp [State.raiseBody]), State.raiseBody, encode_of_raises hd hc,
            State.fetched_instrAddr]
        · refine .done hs i u hd hn hu hq ?_
          rw [← h, State.finishStep_running (hq.runState.trans hr)]

/-- A core step in RUNNING always answers. -/
theorem coreStep_next {s : State} (h : s.runState = .running) (tick : Bool) (rnd : Byte) :
    ∃ t, coreStep tick rnd s = .next t := by
  cases hf : s.runFlag with
  | false => exact ⟨_, coreStep_stop h hf tick rnd⟩
  | true =>
    by_cases hp : 0xFFE < s.pc.toNat
    · exact ⟨_, coreStep_runaway h hf hp tick rnd⟩
    · rw [coreStep_decode ⟨h, hf, by omega⟩]
      cases decodeWord s.cfg.strictXY0 s.fetchedWord with
      | error e => exact ⟨_, rfl⟩
      | ok i =>
        obtain ⟨u, hu⟩ := exec_next i (s.fetched rnd)
        exact ⟨_, by simp only [runBody, hu]; rfl⟩

/-! #### The machine's step -/

theorem step_of_invokes {s s0 : State} {tick : Bool} {rnd : Byte} (h : Invokes s tick rnd s0) :
    step s = coreStep tick rnd s0 := by
  rcases h with ⟨ms, ha, rfl⟩ | ⟨ha, rfl, rfl, rfl⟩ <;> simp only [step, nextMove, ha]

theorem Invokes.eq {s s0 : State} {tick : Bool} {rnd : Byte} (h : Invokes s tick rnd s0) :
    s0 = { s with agenda := s0.agenda, drawCount := s0.drawCount } := by
  rcases h with ⟨ms, -, rfl⟩ | ⟨-, -, -, rfl⟩ <;> rfl

/-- The five moves. -/
inductive StepMoves (s t : State) : Prop where
  | invoke (tick : Bool) (rnd : Byte) (s0 : State) (hi : Invokes s tick rnd s0) (ht : coreStep tick rnd s0 = .next t)
  | setKey (k : Key) (p : Bool) (ms : List Move) (ha : s.agenda = .setKey k p :: ms)
      (ht : t = State.setKey { s with agenda := ms } k p)
  | stop (ms : List Move) (ha : s.agenda = .stop :: ms) (ht : t = State.requestStop { s with agenda := ms })
  | reset (ms : List Move) (ha : s.agenda = .reset :: ms) (ht : t = State.hostReset { s with agenda := ms })
  | load (b : List Byte) (ms : List Move) (ha : s.agenda = .load b :: ms)
      (ht : t = State.hostLoad { s with agenda := ms } b)

/-- A step that answers made one of the five moves. -/
theorem step_cases {s t : State} (h : step s = .next t) : StepMoves s t := by
  cases ha : s.agenda with
  | nil =>
    refine .invoke _ _ _ (.inr ⟨ha, rfl, rfl, rfl⟩) ?_
    rwa [← step_of_invokes (.inr ⟨ha, rfl, rfl, rfl⟩)]
  | cons m ms =>
    cases m with
    | invoke tick rnd =>
      refine .invoke tick rnd _ (.inl ⟨ms, ha, rfl⟩) ?_
      rwa [← step_of_invokes (.inl ⟨ms, ha, rfl⟩)]
    | setKey k p => simp only [step, nextMove, ha] at h; injection h with h; exact .setKey k p ms ha h.symm
    | stop => simp only [step, nextMove, ha] at h; injection h with h; exact .stop ms ha h.symm
    | reset => simp only [step, nextMove, ha] at h; injection h with h; exact .reset ms ha h.symm
    | load b => simp only [step, nextMove, ha] at h; injection h with h; exact .load b ms ha h.symm

end Sys2Proof.Machine
end

