-- ==== Sys2Proof/Laws/Inv.lean ====
section
/-! SUPPORT. What a body keeps of the invariant: canonical memory, the bound on the stack slots, the bound on PC. -/

namespace Sys2Proof.Machine

/-- The part of the invariant that bodies can touch, beside PC. -/
structure BodyInv (s : State) : Prop where
  mem_wf   : s.mem.wf
  stack_le : ∀ k : Fin 16, s.stack[k.val].toNat ≤ 0x1000

theorem BodyInv.storeBlock {s : State} (h : BodyInv s) (n : Nat) :
    BodyInv (s.storeBlock n) ∧ (s.storeBlock n).pc = s.pc := by
  induction n with
  | zero => exact ⟨h, rfl⟩
  | succ n ih => exact ⟨⟨State.wf_memWrite ih.1.mem_wf _ _, ih.1.stack_le⟩, ih.2⟩

theorem BodyInv.loadBlock {s : State} (h : BodyInv s) (n : Nat) :
    BodyInv (s.loadBlock n) ∧ (s.loadBlock n).pc = s.pc := by
  induction n with
  | zero => exact ⟨h, rfl⟩
  | succ n ih => exact ⟨⟨ih.1.mem_wf, ih.1.stack_le⟩, ih.2⟩

theorem BodyInv.advanceI {s : State} (h : BodyInv s) (n : Nat) :
    BodyInv (s.advanceI n) ∧ (s.advanceI n).pc = s.pc := by
  unfold State.advanceI; split
  · exact ⟨⟨h.1, h.2⟩, rfl⟩
  · exact ⟨h, rfl⟩

/-- A body entered with PC = a + 2, a fetchable, leaves PC at most 0x10FE (10_state.md R14). -/
theorem body_inv {i : Instr} {s t : State} (h : exec i s = .next t) (hb : BodyInv s) (h2 : 2 ≤ s.pc.toNat)
    (hp : s.pc.toNat ≤ 0x1000) : BodyInv t ∧ t.pc.toNat ≤ 0x10FE := by
  have same : ∀ t : State, t.mem = s.mem → t.stack = s.stack → t.pc = s.pc → BodyInv t ∧ t.pc.toNat ≤ 0x10FE := by
    intro t h1 h3 h4
    exact ⟨⟨h1 ▸ hb.1, h3 ▸ hb.2⟩, by rw [h4]; omega⟩
  have jump : ∀ w : Word, w.toNat ≤ 0x10FE → BodyInv (s.setPC w) ∧ (s.setPC w).pc.toNat ≤ 0x10FE := fun w hw => ⟨⟨hb.1, hb.2⟩, hw⟩
  have skip : ∀ c : Bool, BodyInv (s.skipIf c) ∧ (s.skipIf c).pc.toNat ≤ 0x10FE := by
    intro c; cases c
    · exact same _ rfl rfl rfl
    · exact jump _ (by simp; omega)
  cases i with
  | sys nnn =>
    simp only [exec, execSys] at h; split at h <;> injection h with h <;> subst h <;> exact same _ rfl rfl rfl
  | call nnn =>
    simp only [exec, execCall] at h
    split at h <;> injection h with h <;> subst h
    · rename_i u hu
      obtain ⟨h16, rfl⟩ := State.push?_eq_some hu
      refine ⟨⟨hb.1, fun k => ?_⟩, ?_⟩
      · simp only [State.setPC, Vector.getElem_set]
        split
        · exact hp
        · exact hb.2 k
      · simp only [State.setPC]; rw [addrWord_toNat]; have := nnn.isLt; omega
    · exact same _ rfl rfl rfl
  | ret =>
    simp only [exec, execRet] at h
    split at h <;> injection h with h <;> subst h
    · rename_i u hu
      obtain ⟨h0, rfl⟩ := State.pop?_eq_some hu
      refine ⟨⟨hb.1, hb.2⟩, ?_⟩
      have := hb.2 ⟨s.sp.val - 1, by omega⟩
      exact le_trans this (by decide)
    · exact same _ rfl rfl rfl
  | jp nnn => injection h with h; subst h; exact jump _ (by rw [addrWord_toNat]; have := nnn.isLt; omega)
  | jpV0 nnn =>
    injection h with h; subst h
    refine jump _ ?_
    have := nnn.isLt
    have := (s.reg 0).isLt
    rw [BitVec.toNat_add, addrWord_toNat, byteWord_toNat]; omega
  | seImm x nn => injection h with h; subst h; exact skip _
  | sneImm x nn => injection h with h; subst h; exact skip _
  | seReg x nn => injection h with h; subst h; exact skip _
  | sneReg x nn => injection h with h; subst h; exact skip _
  | skp x => injection h with h; subst h; exact skip _
  | sknp x => injection h with h; subst h; exact skip _
  | ldVxK x =>
    simp only [exec, execLdVxK] at h
    split at h <;> injection h with h <;> subst h
    · exact same _ rfl rfl rfl
    · refine jump _ ?_
      rw [BitVec.toNat_sub]; have := s.pc.isLt; simp; omega
  | ldB x =>
    injection h with h; subst h
    exact ⟨⟨State.wf_memWrite (State.wf_memWrite (State.wf_memWrite hb.1 _ _) _ _) _ _, hb.2⟩, by show s.pc.toNat ≤ _; omega⟩
  | ldMemVx x =>
    injection h with h; subst h
    have h1 := BodyInv.storeBlock hb (x.val + 1)
    have h3 := BodyInv.advanceI h1.1 (x.val + 1)
    exact ⟨h3.1, by rw [h3.2, h1.2]; omega⟩
  | ldVxMem x =>
    injection h with h; subst h
    have h1 := BodyInv.loadBlock hb (x.val + 1)
    have h3 := BodyInv.advanceI h1.1 (x.val + 1)
    exact ⟨h3.1, by rw [h3.2, h1.2]; omega⟩
  | _ => injection h with h; subst h; exact same _ rfl rfl rfl

end Sys2Proof.Machine
end

