-- ==== Sys2Proof/Tests/Slice0.lean ====
section
/-! SUPPORT. Tests, each one step at most, with the expected values of 95_test_vectors.md (the vector is named in the
comment), then a witness for the hypotheses of every statement that has some. -/

namespace Sys2Proof.Tests

open Sys2Proof.Machine

/-! ### Helpers -/

/-- Registers set before the step. -/
def regs (l : List (Reg × Byte)) (s : State) : State := l.foldl (fun s p => s.setReg p.1 p.2) s

/-- Bytes stored before the step. -/
def bytes (l : List (Nat × Byte)) (s : State) : State := l.foldl (fun s p => s.memWrite p.1 p.2) s

/-- Cells set before the step. -/
def cells (l : List Nat) (s : State) : State := { s with fb := l.foldl flipCell s.fb }

/-- Keys pressed before the step. -/
def keys (l : List Key) (s : State) : State := l.foldl (fun s k => s.setKey k true) s

/-- I set before the step. -/
def index (w : Word) (s : State) : State := { s with i := w }

/-- The word loaded at 0x200 and `before` applied, then one invocation queued with these inputs. -/
def ready (w : Nat) (before : State → State := id) (tick : Bool := false) (rnd : Byte := 0) : State :=
  { before (State.reset.withFetchWord 16 w) with agenda := [.invoke tick rnd] }

/-- A property of the state one step leaves. -/
def after (s : State) (p : State → Bool) : Bool :=
  match step s with
  | .next t => p t
  | _ => false

/-- The bytes at the addresses. -/
def peek (s : State) (l : List Nat) : List Byte := l.map s.mem.read

/-! ### WellFormed: an ill-formed term for each check (30_encoding.md R65) -/

theorem test_wf_refuses_sys_0E0 : (Instr.sys 0x0E0).wf = false := by decide
theorem test_wf_refuses_sys_0EE : (Instr.sys 0x0EE).wf = false := by decide
theorem test_wf_accepts_sys_1E0 : (Instr.sys 0x1E0).wf = true := by decide

/-! ### Decode: a word of every constructor, in bits, from R75's patterns (V-ENC) -/

theorem test_decode_family0 :
    decodeWord true 0b0000_0000_0000_0000 = .ok (.sys 0x000) ∧ decodeWord true 0b0000_0000_1110_0000 = .ok .cls ∧
    decodeWord true 0b0000_0000_1110_1110 = .ok .ret ∧ decodeWord true 0b0000_1111_1110_1110 = .ok (.sys 0xFEE) := by
  decide

theorem test_decode_address :
    decodeWord true 0b0001_1010_1011_1100 = .ok (.jp 0xABC) ∧ decodeWord true 0b0010_1010_1011_1100 = .ok (.call 0xABC) ∧
    decodeWord true 0b1010_0010_1111_0000 = .ok (.ldI 0x2F0) ∧
    decodeWord true 0b1011_0011_0000_0000 = .ok (.jpV0 0x300) := by decide

theorem test_decode_immediate :
    decodeWord true 0b0011_1010_0001_0000 = .ok (.seImm 0xA 0x10) ∧
    decodeWord true 0b0100_1010_0001_0000 = .ok (.sneImm 0xA 0x10) ∧
    decodeWord true 0b0110_1010_0010_1111 = .ok (.ldImm 0xA 0x2F) ∧
    decodeWord true 0b0111_0011_0000_0101 = .ok (.addImm 3 0x05) ∧
    decodeWord true 0b1100_0011_0000_1111 = .ok (.rnd 3 0x0F) := by decide

theorem test_decode_family8 :
    decodeWord true 0b1000_0001_0010_0000 = .ok (.ldReg 1 2) ∧ decodeWord true 0b1000_0001_0010_0001 = .ok (.orReg 1 2) ∧
    decodeWord true 0b1000_0001_0010_0010 = .ok (.andReg 1 2) ∧
    decodeWord true 0b1000_0001_0010_0011 = .ok (.xorReg 1 2) ∧
    decodeWord true 0b1000_0001_0010_0100 = .ok (.addReg 1 2) ∧ decodeWord true 0b1000_0001_0010_0101 = .ok (.sub 1 2) ∧
    decodeWord true 0b1000_0001_0010_0110 = .ok (.shr 1 2) ∧ decodeWord true 0b1000_0001_0010_0111 = .ok (.subn 1 2) ∧
    decodeWord true 0b1000_0001_0010_1110 = .ok (.shl 1 2) := by decide

theorem test_decode_registers :
    decodeWord true 0b0101_0001_0010_0000 = .ok (.seReg 1 2) ∧ decodeWord false 0b0101_0001_0010_0111 = .ok (.seReg 1 2) ∧
    decodeWord true 0b1001_0001_0010_0000 = .ok (.sneReg 1 2) ∧
    decodeWord true 0b1001_0001_0010_0001 = .error (.unknownOpcode 0x9121) ∧
    decodeWord true 0b1101_0001_0010_0101 = .ok (.drw 1 2 5) := by decide

theorem test_decode_families_EF :
    decodeWord true 0b1110_0101_1001_1110 = .ok (.skp 5) ∧ decodeWord true 0b1110_0101_1010_0001 = .ok (.sknp 5) ∧
    decodeWord true 0b1111_0010_0000_0111 = .ok (.ldVxDT 2) ∧ decodeWord true 0b1111_0011_0000_1010 = .ok (.ldVxK 3) ∧
    decodeWord true 0b1111_0010_0001_0101 = .ok (.ldDTVx 2) ∧ decodeWord true 0b1111_0010_0001_1000 = .ok (.ldSTVx 2) ∧
    decodeWord true 0b1111_0100_0001_1110 = .ok (.addI 4) ∧ decodeWord true 0b1111_0000_0010_1001 = .ok (.ldF 0) ∧
    decodeWord true 0b1111_0011_0011_0011 = .ok (.ldB 3) ∧ decodeWord true 0b1111_0010_0101_0101 = .ok (.ldMemVx 2) ∧
    decodeWord true 0b1111_0010_0110_0101 = .ok (.ldVxMem 2) := by decide

theorem test_decode_refuses :
    [0x8128, 0x8129, 0x812A, 0x812B, 0x812C, 0x812D, 0x812F, 0xE000, 0xE19F, 0xE5A0, 0xF000, 0xF1FF, 0xF166, 0xF075].all
      (fun w => decodeTableWord 16 w = none) = true ∧
    decodeBytes false [0x12] = .error .truncated := by decide

/-! ### 41_arithmetic.md (V-AR) -/

/-- AR1. -/
theorem test_ldImm : after (ready 0x6A2F) (fun t => t.reg 0xA = 0x2F ∧ t.pc = 0x0202 ∧ t.lpc = 0x0200) = true := by decide
/-- AR3: wraps, VF untouched. -/
theorem test_addImm_wraps :
    after (ready 0x7305 (regs [(3, 0xFE), (15, 1)])) (fun t => t.reg 3 = 0x03 ∧ t.reg 15 = 1) = true := by decide
/-- AR5. -/
theorem test_ldReg : after (ready 0x8120 (regs [(2, 0x7C)])) (fun t => t.reg 1 = 0x7C ∧ t.reg 2 = 0x7C) = true := by decide
/-- AR6. -/
theorem test_or :
    after (ready 0x8121 (regs [(1, 0x0F), (2, 0xF0), (15, 1)])) (fun t => t.reg 1 = 0xFF ∧ t.reg 15 = 0) = true := by decide
/-- AR7: the old VF takes no part. -/
theorem test_or_vf : after (ready 0x8F21 (regs [(15, 0xAA), (2, 0x55)])) (fun t => t.reg 15 = 0x55) = true := by decide
/-- AR10. -/
theorem test_and :
    after (ready 0x8122 (regs [(1, 0x3C), (2, 0x0F), (15, 1)])) (fun t => t.reg 1 = 0x0C ∧ t.reg 15 = 0) = true := by decide
/-- AR12: VF as operand reads 0. -/
theorem test_and_vf : after (ready 0x81F2 (regs [(1, 0xFF), (15, 0xFF)])) (fun t => t.reg 1 = 0 ∧ t.reg 15 = 0) = true := by
  decide
/-- AR13. -/
theorem test_xor :
    after (ready 0x8123 (regs [(1, 0xFF), (2, 0x0F), (15, 1)])) (fun t => t.reg 1 = 0xF0 ∧ t.reg 15 = 0) = true := by decide
/-- AR15. -/
theorem test_xor_vf : after (ready 0x81F3 (regs [(1, 0x0C), (15, 3)])) (fun t => t.reg 1 = 0x0C ∧ t.reg 15 = 0) = true := by
  decide
/-- AR17. -/
theorem test_add : after (ready 0x8124 (regs [(1, 0xFF), (2, 0xFF)])) (fun t => t.reg 1 = 0xFE ∧ t.reg 15 = 1) = true := by
  decide
/-- AR20: the carry wins over the sum. -/
theorem test_add_vf : after (ready 0x8F14 (regs [(15, 0x02), (1, 0xFF)])) (fun t => t.reg 15 = 1) = true := by decide
/-- AR25: equal operands, no borrow. -/
theorem test_sub_equal : after (ready 0x8125 (regs [(1, 7), (2, 7)])) (fun t => t.reg 1 = 0 ∧ t.reg 15 = 1) = true := by decide
/-- V-SRC-5. -/
theorem test_sub_borrow :
    after (ready 0x8125 (regs [(1, 3), (2, 5), (15, 1)])) (fun t => t.reg 1 = 0xFE ∧ t.reg 15 = 0) = true := by decide
/-- AR32. -/
theorem test_subn_borrow :
    after (ready 0x8127 (regs [(1, 5), (2, 3), (15, 1)])) (fun t => t.reg 1 = 0xFE ∧ t.reg 15 = 0) = true := by decide
/-- AR31. -/
theorem test_subn : after (ready 0x8127 (regs [(1, 0x10), (2, 0x30)])) (fun t => t.reg 1 = 0x20 ∧ t.reg 15 = 1) = true := by
  decide
/-- AR35. -/
theorem test_shr_vx : after (ready 0x8126 (regs [(1, 5), (2, 8)])) (fun t => t.reg 1 = 2 ∧ t.reg 15 = 1 ∧ t.reg 2 = 8) = true := by
  decide
/-- AR36. -/
theorem test_shr_vy :
    after (ready 0x8126 fun s => { regs [(1, 5), (2, 8)] s with cfg := { Config.default with shiftSource := .vy } })
      (fun t => t.reg 1 = 4 ∧ t.reg 15 = 0 ∧ t.reg 2 = 8) = true := by decide
/-- AR43. -/
theorem test_shl_vx : after (ready 0x812E (regs [(1, 0x81), (2, 0x21)])) (fun t => t.reg 1 = 2 ∧ t.reg 15 = 1) = true := by
  decide
/-- AR44. -/
theorem test_shl_vy :
    after (ready 0x812E fun s => { regs [(1, 0x81), (2, 0x21)] s with cfg := { Config.default with shiftSource := .vy } })
      (fun t => t.reg 1 = 0x42 ∧ t.reg 15 = 0) = true := by decide
/-- AR50. -/
theorem test_rnd : after (ready 0xC30F (rnd := 0xA7)) (fun t => t.reg 3 = 0x07) = true := by decide

/-! ### 42_control_flow.md (V-CF) -/

/-- CF1. -/
theorem test_sys_nop : after (ready 0x0123) (fun t => t.pc = 0x0202 ∧ t.runState = .running ∧ t.fault = none) = true := by
  decide
/-- CF2. -/
theorem test_sys_fault :
    after (ready 0x0123 fun s => { s with cfg := { Config.default with sysPolicy := .fault } })
      (fun t => t.runState = .faulted ∧ t.fault = some ⟨.unknownOpcode, some 0x0123, 0x0200, none⟩ ∧ t.pc = 0x0202) = true := by
  decide
/-- CF4. -/
theorem test_jp : after (ready 0x1234) (fun t => t.pc = 0x0234) = true := by decide
/-- CF8: not masked. -/
theorem test_jpV0_unmasked : after (ready 0xBFFF (regs [(0, 0xFF)])) (fun t => t.pc = 0x10FE) = true := by decide
/-- CF11: the 16th call succeeds. -/
theorem test_call_16th :
    after (ready 0x2300 fun s => { s with sp := 15 })
      (fun t => t.stack[15] = 0x0202 ∧ t.sp = 16 ∧ t.pc = 0x0300 ∧ t.runState = .running) = true := by decide
/-- CF12. -/
theorem test_call_overflow :
    after (ready 0x2300 fun s => { s with sp := 16, stack := Vector.replicate 16 0x0111 })
      (fun t => t.fault = some ⟨.stackOverflow, some 0x2300, 0x0200, none⟩ ∧ t.runState = .faulted ∧ t.sp = 16 ∧
        t.stack = Vector.replicate 16 0x0111 ∧ t.pc = 0x0202) = true := by decide
/-- CF16: the top is STACK[15]. -/
theorem test_ret_top :
    after (ready 0x00EE fun s => { s with sp := 16, stack := Vector.ofFn fun i => BitVec.ofNat 16 (0x0100 + 2 * i.val) })
      (fun t => t.sp = 15 ∧ t.pc = 0x011E ∧ t.stack[15] = 0x011E) = true := by decide
/-- CF15. -/
theorem test_ret_underflow :
    after (ready 0x00EE)
      (fun t => t.fault = some ⟨.stackUnderflow, some 0x00EE, 0x0200, none⟩ ∧ t.runState = .faulted ∧ t.sp = 0 ∧
        t.pc = 0x0202) = true := by decide
/-- CF17. -/
theorem test_seImm_taken : after (ready 0x3A10 (regs [(0xA, 0x10)])) (fun t => t.pc = 0x0204) = true := by decide
/-- CF18. -/
theorem test_seImm_not : after (ready 0x3A10 (regs [(0xA, 0x11)])) (fun t => t.pc = 0x0202) = true := by decide
/-- CF19. -/
theorem test_sneImm_taken : after (ready 0x4A10 (regs [(0xA, 0x11)])) (fun t => t.pc = 0x0204) = true := by decide
/-- CF20. -/
theorem test_sneImm_not : after (ready 0x4A10 (regs [(0xA, 0x10)])) (fun t => t.pc = 0x0202) = true := by decide
/-- CF23: the low nibble is ignored. -/
theorem test_seReg_taken : after (ready 0x5127 (regs [(1, 0x33), (2, 0x33)])) (fun t => t.pc = 0x0204) = true := by decide
/-- CF24. -/
theorem test_seReg_strict :
    after (ready 0x5127 fun s => { s with cfg := { Config.default with strictXY0 := true } })
      (fun t => t.fault = some ⟨.unknownOpcode, some 0x5127, 0x0200, none⟩ ∧ t.runState = .faulted ∧ t.pc = 0x0202) = true := by
  decide
/-- CF26. -/
theorem test_sneReg_taken : after (ready 0x9120 (regs [(1, 1), (2, 2)])) (fun t => t.pc = 0x0204) = true := by decide
/-- CF27. -/
theorem test_sneReg_not : after (ready 0x9120 (regs [(1, 2), (2, 2)])) (fun t => t.pc = 0x0202) = true := by decide

/-! ### 43_display.md (V-DSP) -/

/-- V-SRC-8. -/
theorem test_cls : after (ready 0x00E0 (cells [0, 100, 2047])) (fun t => t.fb = 0 ∧ t.redraw = true) = true := by
  decide +kernel
/-- DSP9: the bottom edge clips rows 2 to 4. -/
theorem test_drw_clips :
    after (ready 0xD015 fun s =>
        index 0x300 (bytes [(0x300, 0x80), (0x301, 0x80), (0x302, 0x80), (0x303, 0x80), (0x304, 0x80)] (regs [(1, 30)] s)))
      (fun t => t.fb = (cells [1920, 1984] State.reset).fb ∧ t.reg 15 = 0 ∧ t.redraw = true ∧ t.i = 0x300) = true := by
  decide +kernel
/-- DSP12: with x = F the old VF is the column, then VF is the collision. -/
theorem test_drw_vf :
    after (ready 0xDF11 fun s => cells [131] (index 0x300 (bytes [(0x300, 0x80)] (regs [(15, 3), (1, 2)] s))))
      (fun t => t.fb = 0 ∧ t.reg 15 = 1) = true := by decide +kernel

/-! ### 44_keypad_timers.md (V-KT) -/

/-- KT3: the low nibble selects. -/
theorem test_skp : after (ready 0xE59E fun s => keys [10] (regs [(5, 0x1A)] s)) (fun t => t.pc = 0x0204) = true := by decide
/-- KT2. -/
theorem test_skp_not : after (ready 0xE59E (regs [(5, 7)])) (fun t => t.pc = 0x0202) = true := by decide
/-- KT4. -/
theorem test_sknp : after (ready 0xE5A1 (regs [(5, 7)])) (fun t => t.pc = 0x0204) = true := by decide
/-- KT6. -/
theorem test_sknp_not : after (ready 0xE5A1 fun s => keys [7] (regs [(5, 0xF7)] s)) (fun t => t.pc = 0x0202) = true := by decide
/-- KT8: the lowest index. -/
theorem test_ldVxK : after (ready 0xF30A (keys [9, 4])) (fun t => t.reg 3 = 4 ∧ t.pc = 0x0202) = true := by decide
/-- KT11: timers run while waiting. -/
theorem test_ldVxK_waits :
    after (ready 0xF30A (fun s => { s with dt := 5, st := 1 }) (tick := true))
      (fun t => t.pc = 0x0200 ∧ t.dt = 4 ∧ t.st = 0 ∧ t.dly = true ∧ t.snd = false) = true := by decide
/-- KT13: the read precedes the gate. -/
theorem test_ldVxDT :
    after (ready 0xF207 (fun s => { s with dt := 0x3C }) (tick := true)) (fun t => t.reg 2 = 0x3C ∧ t.dt = 0x3B) = true := by
  decide
/-- KT15: write, then gate. -/
theorem test_ldDTVx : after (ready 0xF215 (regs [(2, 0x3C)]) (tick := true)) (fun t => t.dt = 0x3B ∧ t.dly = true) = true := by
  decide
/-- KT18. -/
theorem test_ldSTVx : after (ready 0xF218 (regs [(2, 5)])) (fun t => t.st = 5 ∧ t.snd = true) = true := by decide
/-- KT19: no tone event. -/
theorem test_ldSTVx_tick :
    after (ready 0xF218 (regs [(2, 1)]) (tick := true))
      (fun t => t.st = 0 ∧ t.snd = false ∧ toneEvent (ready 0xF218) t = none) = true := by decide
/-- KT20: the stop tone. -/
theorem test_ldSTVx_stops :
    after (ready 0xF218 fun s => { s with st := 7, snd := true })
      (fun t => t.st = 0 ∧ toneEvent { State.reset with snd := true } t = some .stop) = true := by decide

/-! ### 45_index_memory.md (V-IM) -/

/-- IM2. -/
theorem test_ldI : after (ready 0xAFFF) (fun t => t.i = 0x0FFF) = true := by decide
/-- IM4: neither masked nor flagged. -/
theorem test_addI : after (ready 0xF41E fun s => index 0x0FFF (regs [(4, 1)] s)) (fun t => t.i = 0x1000 ∧ t.reg 15 = 0) = true := by
  decide
/-- IM6: mod 65536. -/
theorem test_addI_wraps : after (ready 0xF41E fun s => index 0xFFFF (regs [(4, 1)] s)) (fun t => t.i = 0) = true := by decide
/-- IM8: the low nibble. -/
theorem test_ldF : after (ready 0xF029 (regs [(0, 0x1A)])) (fun t => t.i = 0x0082) = true := by decide
/-- IM16: the address wraps. -/
theorem test_ldB_wraps :
    after (ready 0xF333 fun s => index 0x0FFE (regs [(3, 219)] s)) (fun t => peek t [0xFFE, 0xFFF, 0x000] = [2, 1, 9]) = true := by
  decide +kernel
/-- IM19. -/
theorem test_ldMemVx :
    after (ready 0xF255 fun s =>
        { index 0x300 (regs [(0, 0x11), (1, 0x22), (2, 0x33), (3, 0x44)] s) with
          cfg := { Config.default with ldstIncrement := true } })
      (fun t => peek t [0x300, 0x301, 0x302, 0x303] = [0x11, 0x22, 0x33, 0x00] ∧ t.i = 0x0303) = true := by decide
/-- IM28: a store over the executing instruction. -/
theorem test_ldMemVx_code :
    after (ready 0xF155 fun s => index 0x200 (regs [(0, 0x12)] s))
      (fun t => peek t [0x200, 0x201] = [0x12, 0x00] ∧ t.pc = 0x0202) = true := by decide
/-- IM20. -/
theorem test_ldVxMem :
    after (ready 0xF265 fun s =>
        index 0x300 (bytes [(0x300, 0xAA), (0x301, 0xBB), (0x302, 0xCC), (0x303, 0xDD)] (regs [(3, 0x77)] s)))
      (fun t => t.reg 0 = 0xAA ∧ t.reg 1 = 0xBB ∧ t.reg 2 = 0xCC ∧ t.reg 3 = 0x77 ∧ t.i = 0x0300) = true := by decide
/-- IM24. -/
theorem test_ldVxMem_wraps :
    after (ready 0xF165 fun s => index 0x0FFF (bytes [(0xFFF, 0xC3), (0x000, 0xD4)] s))
      (fun t => t.reg 0 = 0xC3 ∧ t.reg 1 = 0xD4) = true := by decide

/-! ### The step, fatal conditions, reset and load (V-FLT, V-RST) -/

/-- FLT3: no timer gate on a faulting step. -/
theorem test_illegal_word :
    after (ready 0x8128 (fun s => { s with dt := 5 }) (tick := true))
      (fun t => t.fault = some ⟨.unknownOpcode, some 0x8128, 0x0200, none⟩ ∧ t.runState = .faulted ∧ t.dt = 5 ∧
        t.pc = 0x0202 ∧ t.lpc = 0x0200 ∧ t.redraw = false) = true := by decide
/-- CF6, the next step. -/
theorem test_runaway :
    after (ready 0x0000 fun s => { s with pc := 0x0FFF, lpc := 0x0200 })
      (fun t => t.fault = some ⟨.runaway, none, 0x0FFF, some 0x0200⟩ ∧ t.runState = .faulted ∧ t.pc = 0x0FFF) = true := by
  decide
/-- FLT5: 0xFFE is the last fetchable address. -/
theorem test_last_fetch :
    after (ready 0x0000 fun s => { s with pc := 0x0FFE }) (fun t => t.pc = 0x1000 ∧ t.lpc = 0x0FFE ∧ t.fault = none) = true := by
  decide
/-- FLT6: a stop wins over Runaway. -/
theorem test_stop_wins :
    after (ready 0x0000 fun s => { s with pc := 0x0FFF, runFlag := false }) (fun t => t.runState = .stopped ∧ t.fault = none) = true := by
  decide
/-- KT23: both timers. -/
theorem test_gate :
    after (ready 0x8000 (fun s => { s with dt := 0xFF, st := 2 }) (tick := true))
      (fun t => t.dt = 0xFE ∧ t.st = 1 ∧ t.dly = true ∧ t.snd = true) = true := by decide
/-- RST1. -/
theorem test_reset_memory :
    peek State.reset [0x04F, 0x050, 0x051, 0x054, 0x09B, 0x09F, 0x0A0] = [0x00, 0xF0, 0x90, 0xF0, 0xF0, 0x80, 0x00] ∧
    (fontData.map BitVec.toNat).sum = 13008 := by decide
/-- A core step at rest (U10). -/
theorem test_at_rest : step { State.reset with agenda := [.invoke true 0] } = .fault (.coreAtRest .idle) := rfl
/-- RST2: Load of an empty image. -/
theorem test_load_empty :
    after { State.reset with agenda := [.load []] } (fun t => t.pc = 0x200 ∧ t.runState = .running ∧ t.runFlag = true ∧ t.mem = []) = true := by
  decide
/-- RST4: an image that is one byte too long. -/
theorem test_load_report :
    loadReport (List.replicate 3585 0xAA) = ⟨3584, true⟩ ∧ loadReport (List.replicate 3584 0xAA) = ⟨3584, false⟩ := by
  simp only [loadReport, maxImage, List.length_replicate]; decide
/-- The numeric causes (R180). -/
theorem test_causes :
    [FatalCondition.unknownOpcode, .stackOverflow, .stackUnderflow, .runaway].map FatalCondition.code = [1, 2, 3, 4] := by
  decide

/-! ### Witnesses: values that meet the hypotheses of each statement, at the ends of their ranges -/

/-- The word loaded at 0x200 and `before` applied, with no move queued. -/
def core (w : Nat) (before : State → State := id) : State :=
  { before (State.reset.withFetchWord 16 w) with agenda := [] }

/-- The same state before the scheduler's invocation is taken from the queue. -/
def queued (s : State) : State := { s with agenda := [.invoke true 0x5A] }

theorem invokes_queued (w : Nat) (before : State → State) :
    Invokes (queued (core w before)) true 0x5A (core w before) := .inl ⟨[], rfl, rfl⟩

theorem invokes_free (w : Nat) (before : State → State) :
    Invokes (core w before) (Config.freeTick (core w before).drawCount) (Config.freeRnd (core w before).drawCount)
      { core w before with drawCount := (core w before).drawCount + 1 } := .inr ⟨rfl, rfl, rfl, rfl⟩

/-- PC at an address. -/
def pcAt (a : Word) (s : State) : State := { s with pc := a }

theorem witness_DecodeGivesBackEncodedBytes :
    (Instr.sys 0xFFF).wf = true ∧ (Instr.sys 0x000).wf = true ∧ (Instr.drw 15 15 15).wf = true := by decide

theorem witness_EncodeGivesBackDecodedWord :
    decodeWord true 0x9FF0 = .ok (.sneReg 15 15) ∧ encode (.sneReg 15 15) = 0x9FF0 ∧
    decodeWord false 0x9FFF = .ok (.sneReg 15 15) ∧ encode (.sneReg 15 15) ≠ 0x9FFF ∧
    decodeWord false 0x5001 = .ok (.seReg 0 0) := by decide

theorem witness_RejectedWordsAreTheIllegalOnes :
    decodeWord false 0x8FFF = .error (.unknownOpcode 0x8FFF) ∧ decodeWord true 0x5001 = .error (.unknownOpcode 0x5001) ∧
    decodeWord false 0xEFFF = .error (.unknownOpcode 0xEFFF) ∧ decodeWord false 0xFFFF = .error (.unknownOpcode 0xFFFF) := by
  decide

theorem witness_StepRunsDecodedInstruction :
    (Invokes (queued (core 0x1234)) true 0x5A (core 0x1234) ∧ Fetches (core 0x1234) ∧
      decodeWord (core 0x1234).cfg.strictXY0 ((core 0x1234).fetch (core 0x1234).pc) = .ok (.jp 0x234)) ∧
    (∃ tick rnd s0, Invokes (core 0 (pcAt 0xFFE)) tick rnd s0 ∧ Fetches s0 ∧
      decodeWord s0.cfg.strictXY0 (s0.fetch s0.pc) = .ok (.sys 0)) :=
  ⟨⟨invokes_queued _ _, ⟨rfl, rfl, by decide⟩, by decide⟩, _, _, _, invokes_free _ _, ⟨rfl, rfl, by decide⟩, by decide⟩

theorem witness_FetchIsBigEndian : (0xFFE#16).toNat ≤ 0xFFE ∧ (0#16).toNat ≤ 0xFFE := by decide

theorem witness_ClearedRunFlagStopsTheStep :
    Invokes (queued (core 0 fun s => { s with runFlag := false, pc := 0xFFF })) true 0x5A
      (core 0 fun s => { s with runFlag := false, pc := 0xFFF }) ∧
    (core 0 fun s => { s with runFlag := false, pc := 0xFFF }).runState = .running ∧
    (core 0 fun s => { s with runFlag := false, pc := 0xFFF }).runFlag = false := ⟨invokes_queued _ _, rfl, rfl⟩

theorem witness_UnfetchablePcRaisesRunaway :
    ∀ a ∈ [0xFFF#16, 0x1000#16, 0xFFFF#16],
      Invokes (queued (core 0 (pcAt a))) true 0x5A (core 0 (pcAt a)) ∧ (core 0 (pcAt a)).runState = .running ∧
      (core 0 (pcAt a)).runFlag = true ∧ 0xFFE < (core 0 (pcAt a)).pc.toNat := by
  intro a ha
  refine ⟨invokes_queued _ _, rfl, rfl, ?_⟩
  simp only [List.mem_cons, List.not_mem_nil, or_false] at ha
  rcases ha with rfl | rfl | rfl <;> decide

theorem witness_IllegalWordRaisesUnknownOpcode :
    Invokes (queued (core 0x8128)) true 0x5A (core 0x8128) ∧ Fetches (core 0x8128) ∧
    decodeWord (core 0x8128).cfg.strictXY0 ((core 0x8128).fetch (core 0x8128).pc) = .error (.unknownOpcode 0x8128) :=
  ⟨invokes_queued _ _, ⟨rfl, rfl, by decide⟩, by decide⟩

theorem witness_StepStopsExactlyAtRest :
    State.reset.runState ≠ .running ∧ ∃ tick rnd s0, Invokes State.reset tick rnd s0 :=
  ⟨by decide, _, _, _, .inr ⟨rfl, rfl, rfl, rfl⟩⟩

/-- A step that ends RUNNING, on a tick, with a timer at 1, and one that faults on a tick. -/
theorem witness_TimersCountDownAtTheGate :
    Invokes (queued (core 0x8000 fun s => { s with dt := 1 })) true 0x5A (core 0x8000 fun s => { s with dt := 1 }) ∧
    after (queued (core 0x8000 fun s => { s with dt := 1 })) (fun t => t.runState = .running) = true ∧
    Invokes (queued (core 0x8128 fun s => { s with dt := 1 })) true 0x5A (core 0x8128 fun s => { s with dt := 1 }) ∧
    after (queued (core 0x8128 fun s => { s with dt := 1 })) (fun t => t.runState ≠ .running) = true :=
  ⟨invokes_queued _ _, by decide, invokes_queued _ _, by decide⟩

/-- One step for each condition, and one that raises none. -/
theorem witness_StepFaultsExactlyOnTheFourConditions :
    (∀ w before, Invokes (queued (core w before)) true 0x5A (core w before)) ∧
    after (queued (core 0 (pcAt 0xFFF))) (fun t => t.runState = .faulted) = true ∧
    after (queued (core 0x8128)) (fun t => t.runState = .faulted) = true ∧
    after (queued (core 0 fun s => { s with cfg := { Config.default with sysPolicy := .fault } }))
      (fun t => t.runState = .faulted) = true ∧
    after (queued (core 0x2300 fun s => { s with sp := 16 })) (fun t => t.runState = .faulted) = true ∧
    after (queued (core 0x00EE)) (fun t => t.runState = .faulted) = true ∧
    after (queued (core 0x2300 fun s => { s with sp := 15 })) (fun t => t.runState = .running) = true :=
  ⟨invokes_queued, by decide, by decide, by decide, by decide, by decide, by decide⟩

theorem witness_FatalConditionsArePrecise :
    Invokes (queued (core 0x8128 (pcAt 0x200))) true 0x5A (core 0x8128 (pcAt 0x200)) ∧
    after (queued (core 0x8128 (pcAt 0x200))) (fun t => t.runState = .faulted) = true ∧
    Invokes (queued (core 0x8128 (pcAt 0xFFF))) true 0x5A (core 0x8128 (pcAt 0xFFF)) ∧
    after (queued (core 0x8128 (pcAt 0xFFF))) (fun t => t.runState = .faulted) = true :=
  ⟨invokes_queued _ _, by decide, invokes_queued _ _, by decide⟩

/-- A first queued move of each kind, images at both sides of the limit, and a step out of RUNNING. -/
theorem witness_RunStateTransitions :
    after { State.reset with agenda := [.reset] } (fun t => t.runState = .idle) = true ∧
    after { State.reset with agenda := [.load [0x12]] } (fun t => t.runState = .running) = true ∧
    (List.replicate 3584 (0xAA : Byte)).length ≤ 3584 ∧ ¬ (List.replicate 3585 (0xAA : Byte)).length ≤ 3584 ∧
    after (queued (core 0 fun s => { s with runFlag := false })) (fun t => t.runState = .stopped) = true := by
  refine ⟨by decide, by decide, ?_, ?_, by decide⟩
  · rw [List.length_replicate]
  · rw [List.length_replicate]; decide

theorem witness_RedrawReportsDisplayInstructions :
    after (queued (core 0xD000)) (fun t => t.redraw = true) = true ∧
    after (queued (core 0x6000 fun s => { s with redraw := true })) (fun t => t.redraw = false) = true := by decide

theorem witness_CoreStepKeepsKeysAndRunFlag :
    Invokes (queued (core 0xF30A (keys [4]))) true 0x5A (core 0xF30A (keys [4])) ∧
    after (queued (core 0xF30A (keys [4]))) (fun t => t.keyDown 4) = true := ⟨invokes_queued _ _, by decide⟩

/-- The invariant holds at a running state whose next step, the last fetchable CALL, answers. -/
theorem witness_EveryStepKeepsInvariant :
    (queued (core 0x2300 (pcAt 0xFFE))).Inv ∧ after (queued (core 0x2300 (pcAt 0xFFE))) (fun _ => true) = true :=
  ⟨⟨by decide, by decide, by decide, by decide, rfl, rfl, rfl, fun f hf => nomatch (show none = some f from hf)⟩,
    by decide⟩

/-- A state after Reset with a Load queued. -/
def loading : State := { State.reset with agenda := [.load [0x12]] }

/-- A state after Reset, and the running one a step later. -/
theorem witness_ReachableStatesSatisfyInvariant :
    loading.hostReset.Reachable ∧ ∃ t, step loading.hostReset = .next t ∧ t.Reachable ∧ t.runState = .running :=
  have h : loading.hostReset.Reachable := .reset loading
  ⟨h, _, rfl, .step h rfl, rfl⟩

theorem witness_ResetLeavesTheSpecsValues :
    { core 0x1234 with agenda := [.reset] }.agenda = .reset :: ([] : List Move) := rfl

theorem witness_LoadPlacesTheImage :
    { State.reset with agenda := [.load [0x12, 0x34]] }.agenda = .load [0x12, 0x34] :: ([] : List Move) ∧
    (1 : Nat) < ([0x12, 0x34] : List Byte).length ∧ 3583 < (List.replicate 3585 (0xAA : Byte)).length ∧
    3584 < (List.replicate 3585 (0xAA : Byte)).length := by
  refine ⟨rfl, by decide, ?_, ?_⟩ <;> (rw [List.length_replicate]; decide)

theorem witness_StopAndKeyMovesWriteOneFlag :
    { core 0 with agenda := [.stop] }.agenda = .stop :: ([] : List Move) ∧
    { core 0 with agenda := [.setKey 15 true] }.agenda = .setKey 15 true :: ([] : List Move) := ⟨rfl, rfl⟩

/-- x below and at F, both policies of VF as operand. -/
theorem witness_LogicClearsVfThenCombines :
    ((core 0).reg 3 = if (3 : Reg) = 15 then 0 else (core 0).reg 3) ∧
    ((0 : Byte) = if (15 : Reg) = 15 then 0 else (core 0 (regs [(15, 9)])).reg 15) ∧ (14 : Reg) ≠ 15 := by decide

/-- The clauses on x ≠ F of AddRegSetsCarry, SubSetsNoBorrow, SubnSetsNoBorrow, ShrShiftsOutLowBit, ShlShiftsOutHighBit, with
both values of the flag and of SHIFT_SOURCE. -/
theorem witness_arithmetic :
    (0 : Reg) ≠ 15 ∧ (14 : Reg) ≠ 15 ∧ ((core 0 (regs [(1, 255), (2, 1)])).reg 1).toNat + ((core 0 (regs [(1, 255), (2, 1)])).reg 2).toNat > 255 ∧
    ((core 0 (regs [(1, 254), (2, 1)])).reg 1).toNat + ((core 0 (regs [(1, 254), (2, 1)])).reg 2).toNat ≤ 255 ∧
    (core 0).cfg.shiftSource = .vx ∧
    (core 0 fun s => { s with cfg := { Config.default with shiftSource := .vy } }).cfg.shiftSource ≠ .vx := by decide

theorem witness_RndMasksTheRandomInput : (core 0 fun s => { s with rndIn := 0xA7 }).rndIn = 0xA7 := rfl

theorem witness_SysFollowsItsPolicy :
    (0x0DF : Addr) ≠ 0x0E0 ∧ (0x0DF : Addr) ≠ 0x0EE ∧ (core 0).cfg.sysPolicy = .nop ∧
    (core 0 fun s => { s with cfg := { Config.default with sysPolicy := .fault } }).cfg.sysPolicy = .fault := by decide

theorem witness_CallPushesOrOverflows :
    (core 0).sp.val = (0 : Fin 16).val ∧ (core 0 fun s => { s with sp := 15 }).sp.val = (15 : Fin 16).val ∧
    (core 0 fun s => { s with sp := 16 }).sp.val = 16 := by decide

theorem witness_RetPopsOrUnderflows :
    (core 0 fun s => { s with sp := 1 }).sp.val = (0 : Fin 16).val + 1 ∧
    (core 0 fun s => { s with sp := 16 }).sp.val = (15 : Fin 16).val + 1 ∧ (core 0).sp.val = 0 := by decide

theorem witness_SixteenNestedCallsThenOverflow :
    (core 0).sp.val + (List.replicate 16 (0x200 : Addr)).length = 16 ∧
    (core 0 fun s => { s with sp := 16 }).sp.val + ([] : List Addr).length = 16 := by decide

theorem witness_RegisterSkips :
    (true = false ∨ (0 : Nibble) = 0) ∧ (false = false ∨ (15 : Nibble) = 0) ∧ (true = true ∧ (15 : Nibble) ≠ 0) := by decide

theorem witness_DrwXorsTheClippedSprite :
    SpriteLights (core 0 fun s => index 0x300 (bytes [(0x300, 0x80)] s)) 63 31 1 2047 ∧
    ¬ SpriteLights (core 0) 63 31 0 2047 ∧
    cell (core 0 (cells [2047])).fb 2047 = true ∧ cell (core 0).fb 2047 = false := by
  refine ⟨⟨0, 0, by decide, by decide, by decide, by decide, by decide, by decide⟩, ?_, by decide +kernel, by decide +kernel⟩
  rintro ⟨r, k, hr, -⟩
  omega

/-- Two draws of no row with x, y below F, and two with x = y = F, where VF selects column 0 and row 0 before (64) and after
(no collision). -/
theorem witness_DrawingTwiceRestoresTheScreen :
    (0 : Reg) ≠ 15 ∧ (14 : Reg) ≠ 15 ∧
    (∃ t u, exec (.drw 0 14 5) (core 0) = .next t ∧ exec (.drw 0 14 5) t = .next u) ∧
    ∃ t u, exec (.drw 15 15 0) (core 0 (regs [(15, 64)])) = .next t ∧ exec (.drw 15 15 0) t = .next u ∧
      (t.reg 15).toNat % 64 = ((core 0 (regs [(15, 64)])).reg 15).toNat % 64 ∧
      (t.reg 15).toNat % 32 = ((core 0 (regs [(15, 64)])).reg 15).toNat % 32 :=
  ⟨by decide, by decide, ⟨_, _, rfl, rfl⟩, _, _, rfl, rfl, by decide, by decide⟩

theorem witness_KeySkips :
    (0 : Key).val = ((core 0).reg 5).toNat % 16 ∧ (15 : Key).val = ((core 0 (regs [(5, 0xFF)])).reg 5).toNat % 16 := by decide

theorem witness_WaitForKeyTakesLowestOrPolls :
    ((core 0 (keys [15])).keyDown 15 = true ∧ ∀ j, j < 15 → (core 0 (keys [15])).keyDown j = false) ∧
    ((core 0 (keys [0, 15])).keyDown 0 = true ∧ ∀ j, j < (0 : Key) → (core 0 (keys [0, 15])).keyDown j = false) ∧
    ∀ k, (core 0).keyDown k = false := by decide

theorem witness_TimerAccess : (core 0).runState = .running := rfl

theorem witness_blocks : (0 : Reg) ≤ 0 ∧ (15 : Reg) ≤ 15 ∧ (0 : Reg) ≤ 15 := by decide

/-- Both bytes of a word stored, at the first and at the last address an instruction is fetched from, by a block store and as
the first or the last two digits. -/
theorem witness_FetchSeesStoredBytes :
    (∃ t, exec (.ldMemVx 1) (core 0) = .next t) ∧ (1 : Reg).val = (0 : Reg).val + 1 ∧ (1 : Reg) ≤ 1 ∧
    (0#16).toNat = ((core 0).i.toNat + (0 : Reg).val) % 4096 ∧ (0#16).toNat ≤ 0xFFE ∧
    (0xFFE#16).toNat = ((core 0 (index 0x1FFE)).i.toNat + (0 : Reg).val) % 4096 ∧ (0xFFE#16).toNat ≤ 0xFFE ∧
    (∃ t, exec (.ldB 3) (core 0 (index 0x1FFE)) = .next t) ∧
    (0xFFE#16).toNat = (core 0 (index 0x1FFE)).i.toNat % 4096 ∧
    (∃ t, exec (.ldB 3) (core 0 (index 0xFFF)) = .next t) ∧
    (0#16).toNat = ((core 0 (index 0xFFF)).i.toNat + 1) % 4096 :=
  ⟨⟨_, rfl⟩, by decide, by decide, by decide, by decide, by decide, by decide, ⟨_, rfl⟩, by decide, ⟨_, rfl⟩, by decide⟩

/-- Instructions that write VF, PC, and each other part, on states where they change it. -/
theorem witness_writers :
    after (queued (core 0x8124 (regs [(1, 255), (2, 1)]))) (fun t => t.reg 15 ≠ 0) = true ∧
    after (queued (core 0x1234)) (fun t => t.pc ≠ 0x202) = true ∧
    after (queued (core 0x3000)) (fun t => t.pc = 0x204) = true ∧
    after (queued (core 0xF00A)) (fun t => t.pc = 0x200) = true ∧
    after (queued (core 0x2300)) (fun t => t.stack[0] ≠ 0 ∧ t.sp ≠ 0) = true ∧
    after (queued (core 0xF155 (index 0x300 ∘ regs [(0, 1)]))) (fun t => t.mem.read 0x300 ≠ 0) = true ∧
    after (queued (core 0xF215 (regs [(2, 9)]))) (fun t => t.dt ≠ 0) = true ∧
    after (queued (core 0xF218 (regs [(2, 9)]))) (fun t => t.st ≠ 0) = true ∧
    after (queued (core 0xA001)) (fun t => t.i ≠ 0) = true := by decide

/-- Instructions outside the readers of ST, of the random input and of the keys. -/
theorem witness_readers :
    (∃ t, exec .cls (core 0) = .next t) ∧ (∀ x, Instr.cls ≠ .ldSTVx x) ∧ (∀ x nn, Instr.cls ≠ .rnd x nn) ∧
    ∀ x, Instr.cls ≠ .skp x ∧ Instr.cls ≠ .sknp x ∧ Instr.cls ≠ .ldVxK x :=
  ⟨⟨_, rfl⟩, by simp, by simp, by simp⟩

theorem witness_CanonicalMemoriesAreDeterminedByReads :
    Memory.wf [] ∧ Memory.wf [(0x000, 1), (0xFFF, 2)] ∧ ¬ Memory.wf [(0x000, 0)] ∧ ¬ Memory.wf [(0x1000, 1)] := by decide

end Sys2Proof.Tests
end

section
/-! The family 10_state: what REDRAW reports at the end of a core step (10_state.md R31). -/

namespace Sys2Proof.Machine

/-- The three conditions an instruction can raise belong to SYS, CALL and RET (60_exceptions.md R180). -/
theorem Raises.not_displays {i : Instr} {s : State} {c : FatalCondition} (h : Raises i s c) : ¬ Displays i := by
  rcases h with ⟨⟨nnn, rfl⟩, -⟩ | ⟨⟨nnn, rfl⟩, -⟩ | ⟨rfl, -⟩ <;> simp [Displays]

/-- The step executes a display instruction: it gets as far as the fetch and the word decodes to one (43_display.md
R143). -/
def ExecutesDisplay (s : State) : Prop :=
  Fetches s ∧ ∃ i, decodeWord s.cfg.strictXY0 s.fetchedWord = .ok i ∧ Displays i

theorem executesDisplay_iff {s : State} :
    ExecutesDisplay s ↔
      Fetches s ∧
        (decodeWord s.cfg.strictXY0 s.fetchedWord = .ok .cls ∨
          ∃ x y n, decodeWord s.cfg.strictXY0 s.fetchedWord = .ok (.drw x y n)) := by
  refine and_congr_right fun _ => ⟨?_, ?_⟩
  · rintro ⟨i, hd, rfl | ⟨x, y, n, rfl⟩⟩
    · exact .inl hd
    · exact .inr ⟨x, y, n, hd⟩
  · rintro (hd | ⟨x, y, n, hd⟩)
    · exact ⟨_, hd, .inl rfl⟩
    · exact ⟨_, hd, .inr ⟨x, y, n, rfl⟩⟩

theorem executesDisplay_iff_displays {s : State} {i : Instr} (hs : Fetches s)
    (hd : decodeWord s.cfg.strictXY0 s.fetchedWord = .ok i) : ExecutesDisplay s ↔ Displays i := by
  simp [ExecutesDisplay, hs, hd]

/-- REDRAW at each of the five ends of a core step: down at every stop and fault, and as the body left it otherwise,
since the gate and the levels do not write it. -/
theorem coreStep_redraw {tick : Bool} {rnd : Byte} {s t : State} (h : coreStep tick rnd s = .next t) :
    t.redraw = true ↔ ExecutesDisplay s := by
  obtain ⟨-, ends⟩ := coreStep_cases h
  cases ends with
  | stopped hf ht => subst ht; simp [ExecutesDisplay, Fetches, hf]
  | runaway hf hp ht =>
    have hs : ¬ Fetches s := fun ⟨_, _, hpc⟩ => absurd hpc (by omega)
    subst ht; simp [ExecutesDisplay, hs, State.raiseRunaway]
  | illegal hs e hd ht => subst ht; simp [ExecutesDisplay, hd]
  | raised hs i c hd hr ht =>
    subst ht; simp [executesDisplay_iff_displays hs hd, hr.not_displays]
  | done hs i u hd hn hu hq ht =>
    subst ht
    rw [executesDisplay_iff_displays hs hd, State.driveLevels_redraw, State.timerGate_redraw]
    exact exec_redraw hu (State.fetched_redraw s rnd)

/-- Settles O16, by the five ends of a core step. -/
theorem redrawReportsDisplayInstructions : Obligations.RedrawReportsDisplayInstructions := by
  intro s s0 t tick rnd hi h
  rw [step_of_invokes hi] at h
  exact (coreStep_redraw h).trans executesDisplay_iff

end Sys2Proof.Machine
end

section
/-! The family 30_encoding: how the fields of a word overlap, and its two bytes (30_encoding.md R61). -/

namespace Sys2Proof.Machine

/-- `nn = y || n`. -/
theorem fieldNN_toNat_eq_y_n (w : Word) : (fieldNN w).toNat = (fieldY w).val * 0x10 + (fieldN w).toNat := by
  rw [fieldNN_toNat, fieldY_val, fieldN_toNat]; omega

/-- `nnn = x || nn`. -/
theorem fieldNNN_toNat_eq_x_nn (w : Word) : (fieldNNN w).toNat = (fieldX w).val * 0x100 + (fieldNN w).toNat := by
  rw [fieldNNN_toNat, fieldX_val, fieldNN_toNat]; omega

/-- The byte at the lower address is `t || x`. -/
theorem highByte_eq_t_x (w : Word) :
    w.extractLsb' 8 8 = BitVec.ofNat 8 ((fieldT w).toNat * 0x10 + (fieldX w).val) := by
  apply BitVec.eq_of_toNat_eq
  rw [BitVec.extractLsb'_toNat, Nat.shiftRight_eq_div_pow, BitVec.toNat_ofNat, fieldT_toNat, fieldX_val]
  omega

/-- The bytes of a word are `t || x` and `nn`. -/
theorem bytesOfWord_eq_fields (w : Word) :
    bytesOfWord w = [BitVec.ofNat 8 ((fieldT w).toNat * 0x10 + (fieldX w).val), fieldNN w] := by
  rw [bytesOfWord, highByte_eq_t_x, fieldNN]

/-- Settles O4, from the value of each field, the two overlaps and the two bytes. -/
theorem fieldsAreTheBitsOfTheWord : Obligations.FieldsAreTheBitsOfTheWord := fun w =>
  ⟨fieldT_toNat w, fieldX_val w, fieldY_val w, fieldN_toNat w, fieldNN_toNat w, fieldNNN_toNat w,
    fieldNN_toNat_eq_y_n w, fieldNNN_toNat_eq_x_nn w, bytesOfWord_eq_fields w⟩

end Sys2Proof.Machine
end

section
/-! The family 40_step_loop: a core step with RUNFLAG cleared (40_step_loop.md R82). -/

namespace Sys2Proof.Machine

theorem sameBut_enterStopped (s : State) : SameBut [.runState, .redraw] s s.enterStopped := by
  intro p hp
  cases p with
  | runState | redraw => simp at hp
  | _ => rfl

/-- Settles O8: the stop check comes before the Runaway check and the fetch, so neither PC nor an input is looked at. -/
theorem clearedRunFlagStopsTheStep : Obligations.ClearedRunFlagStopsTheStep := by
  intro s s0 tick rnd hi hr hf
  have hstep : step s = .next s0.enterStopped := (step_of_invokes hi).trans (coreStep_stop hr hf tick rnd)
  exact ⟨s0.enterStopped, hstep, s0.enterStopped_runState, s0.enterStopped_redraw, sameBut_enterStopped s0⟩

end Sys2Proof.Machine
end

section
/-! The family 41_arithmetic: the loads, and the five instructions that write a result and then a flag
(41_arithmetic.md R101, R103, R107 to R111). -/

namespace Sys2Proof.Machine

/-! #### What the flag bytes and the results are as numbers -/

theorem flagByte_toNat (b : Bool) : (flagByte b).toNat = b.toNat := by cases b <;> rfl

theorem flagByte_carryOut (a b : Byte) : flagByte (carryOut a b) = if a.toNat + b.toNat > 255 then 1 else 0 := by
  simp only [flagByte_eq, carryOut, decide_eq_true_eq]

theorem flagByte_noBorrow (a b : Byte) : flagByte (noBorrow a b) = if a.toNat ≥ b.toNat then 1 else 0 := by
  simp only [flagByte_eq, noBorrow, decide_eq_true_eq]

/-- The difference of two bytes is the integer difference, mod 256. -/
theorem toNat_sub_eq_emod (a b : Byte) : ((a - b).toNat : Int) = ((a.toNat : Int) - b.toNat) % 256 := by
  have ha := a.isLt
  have hb := b.isLt
  rw [BitVec.toNat_sub]
  omega

/-- The bit that SHR shifts out is the remainder of the halving. -/
theorem flagByte_lowBit_toNat (v : Byte) : (flagByte (lowBit v)).toNat = v.toNat % 2 := by
  rw [flagByte_toNat, lowBit, BitVec.getLsbD, Nat.toNat_testBit, Nat.pow_zero, Nat.div_one]

/-- The bit that SHL shifts out is the overflow of the doubling. -/
theorem flagByte_highBit_toNat (v : Byte) : (flagByte (highBit v)).toNat = v.toNat / 128 := by
  have hv := v.isLt
  rw [flagByte_toNat, highBit, BitVec.getLsbD, Nat.toNat_testBit]
  omega

theorem toNat_shiftRight_one (v : Byte) : (v >>> 1).toNat = v.toNat / 2 := by
  rw [BitVec.toNat_ushiftRight, Nat.shiftRight_eq_div_pow, Nat.pow_one]

theorem toNat_shiftLeft_one (v : Byte) : (v <<< 1).toNat = v.toNat * 2 % 256 := by
  rw [BitVec.toNat_shiftLeft, Nat.shiftLeft_eq, Nat.pow_one]

/-- The register SHR and SHL read, by the parameter SHIFT_SOURCE (00_scope.md R7). -/
theorem State.shiftOperand_eq (s : State) (x y : Reg) :
    s.shiftOperand x y = if s.cfg.shiftSource = .vx then s.reg x else s.reg y := by
  cases h : s.cfg.shiftSource <;> simp [State.shiftOperand, h]

/-! #### The two shapes of a body: one register written, or a result and then a flag -/

theorem exec_of_setReg {i : Instr} {s : State} {x : Reg} {b : Byte} (h : exec i s = .next (s.setReg x b)) :
    ∃ t, exec i s = .next t ∧ t.reg x = b ∧ SameBut [.v x] s t :=
  ⟨_, h, State.setReg_reg_same s x b, sameBut_setReg s x b⟩

/-- With x = F only the flag is seen afterwards (R100). -/
theorem exec_of_setResultFlag {i : Instr} {s : State} {x : Reg} {r : Byte} {f : Bool}
    (h : exec i s = .next (s.setResultFlag x r f)) :
    ∃ t, exec i s = .next t ∧ (x ≠ 15 → t.reg x = r) ∧ t.reg 15 = flagByte f ∧ SameBut [.v x, .v 15] s t :=
  ⟨_, h, State.setResultFlag_reg s x r f, State.setResultFlag_vf s x r f, sameBut_setResultFlag s x r f⟩

/-- SUB and SUBN differ in which register is the minuend `a` (R108, R110). -/
theorem exec_of_difference {i : Instr} {s : State} {x : Reg} {a b : Byte}
    (h : exec i s = .next (s.setResultFlag x (a - b) (noBorrow a b))) :
    ∃ t, exec i s = .next t ∧ (x ≠ 15 → ((t.reg x).toNat : Int) = ((a.toNat : Int) - b.toNat) % 256) ∧
      t.reg 15 = (if a.toNat ≥ b.toNat then 1 else 0) ∧ SameBut [.v x, .v 15] s t := by
  obtain ⟨t, ht, hx, hf, hs⟩ := exec_of_setResultFlag h
  have hdiff (h15 : x ≠ 15) : ((t.reg x).toNat : Int) = ((a.toNat : Int) - b.toNat) % 256 := by
    rw [hx h15, toNat_sub_eq_emod]
  exact ⟨t, ht, hdiff, hf.trans (flagByte_noBorrow a b), hs⟩

/-! #### The obligations -/

/-- Settles O28: the sum is the sum of the numbers mod 256, and the carry is written after it. -/
theorem addRegSetsCarry : Obligations.AddRegSetsCarry := by
  intro strict x y s
  obtain ⟨t, ht, hx, hf, hs⟩ := exec_of_setResultFlag (rfl : exec (.addReg x y) s = _)
  have hsum (h : x ≠ 15) : (t.reg x).toNat = ((s.reg x).toNat + (s.reg y).toNat) % 256 := by
    rw [hx h, BitVec.toNat_add]
  exact ⟨Laws.decode_patXYN (t := 0x8) strict rfl rfl, t, ht, hsum, hf.trans (flagByte_carryOut _ _), hs⟩

/-- Settles O29: the minuend is Vx. -/
theorem subSetsNoBorrow : Obligations.SubSetsNoBorrow := fun strict _ _ _ =>
  ⟨Laws.decode_patXYN (t := 0x8) strict rfl rfl, exec_of_difference rfl⟩

/-- Settles O30: the minuend is Vy. -/
theorem subnSetsNoBorrow : Obligations.SubnSetsNoBorrow := fun strict _ _ _ =>
  ⟨Laws.decode_patXYN (t := 0x8) strict rfl rfl, exec_of_difference rfl⟩

/-- Settles O31: quotient and remainder of the selected operand by 2. -/
theorem shrShiftsOutLowBit : Obligations.ShrShiftsOutLowBit := by
  intro strict x y s
  refine ⟨Laws.decode_patXYN (t := 0x8) strict rfl rfl, fun v hv => ?_⟩
  obtain ⟨t, ht, hx, hf, hs⟩ := exec_of_setResultFlag (rfl : exec (.shr x y) s = _)
  rw [State.shiftOperand_eq, ← hv] at hx hf
  have hhalf (h : x ≠ 15) : (t.reg x).toNat = v.toNat / 2 := by rw [hx h, toNat_shiftRight_one]
  have hflag : (t.reg 15).toNat = v.toNat % 2 := by rw [hf, flagByte_lowBit_toNat]
  exact ⟨t, ht, hhalf, hflag, hs⟩

/-- Settles O32: the doubled operand mod 256, and what the doubling overflows by. -/
theorem shlShiftsOutHighBit : Obligations.ShlShiftsOutHighBit := by
  intro strict x y s
  refine ⟨Laws.decode_patXYN (t := 0x8) strict rfl rfl, fun v hv => ?_⟩
  obtain ⟨t, ht, hx, hf, hs⟩ := exec_of_setResultFlag (rfl : exec (.shl x y) s = _)
  rw [State.shiftOperand_eq, ← hv] at hx hf
  have hdouble (h : x ≠ 15) : (t.reg x).toNat = v.toNat * 2 % 256 := by rw [hx h, toNat_shiftLeft_one]
  have hflag : (t.reg 15).toNat = v.toNat / 128 := by rw [hf, flagByte_highBit_toNat]
  exact ⟨t, ht, hdouble, hflag, hs⟩

/-- Settles O24: one register write. -/
theorem ldImmSetsRegister : Obligations.LdImmSetsRegister := fun strict _ _ _ =>
  ⟨Laws.decode_patXK (t := 0x6) strict rfl rfl, exec_of_setReg rfl⟩

/-- Settles O26: one register write. -/
theorem ldRegCopiesRegister : Obligations.LdRegCopiesRegister := fun strict _ _ _ =>
  ⟨Laws.decode_patXYN (t := 0x8) strict rfl rfl, exec_of_setReg rfl⟩

end Sys2Proof.Machine
end

section
/-! The family 42_control_flow: SYS, JP, CALL, RET and the four skips that compare (42_control_flow.md R121 to R124,
R126 to R129). -/

namespace Sys2Proof.Machine

/-! #### The fatal condition of a body -/

/-- `exec_cases` read from the condition's side: where the condition holds, the body is fault entry alone. -/
theorem exec_of_raises {i : Instr} {s : State} {c : FatalCondition} (h : Raises i s c) :
    exec i s = .next (s.raiseBody c (encode i)) := by
  obtain ⟨⟨nnn, rfl⟩, hpolicy, rfl⟩ | ⟨⟨nnn, rfl⟩, hfull, rfl⟩ | ⟨rfl, hempty, rfl⟩ := h
  · simp only [exec, execSys, hpolicy]
  · simp only [exec, execCall, State.push?_eq_none_iff.2 hfull]
  · simp only [exec, execRet, State.pop?_eq_none_iff.2 hempty]

/-- The record, the run control and the frame of a condition raised by a body (60_exceptions.md R180, R190). -/
theorem exec_faults_of_raises {i : Instr} {s : State} {c : FatalCondition} (h : Raises i s c) :
    ∃ t, exec i s = .next t ∧ t.fault = some ⟨c, some (encode i), s.pc - 2, none⟩ ∧ t.runState = .faulted ∧
      t.redraw = false ∧ SameBut [.fault, .runState, .redraw] s t :=
  ⟨_, exec_of_raises h, rfl, rfl, rfl, sameBut_raise s c _ _ _⟩

/-! #### A push and a pop inside the bounds, and their frames -/

theorem State.push?_spec {s : State} {k : Fin 16} (hk : s.sp.val = k.val) :
    ∃ u, s.push? = some u ∧ u.stack[k.val] = s.pc ∧ u.sp.val = s.sp.val + 1 ∧ SameBut [.stack k, .sp] s u := by
  refine ⟨_, State.push?_of_lt (hk ▸ k.isLt), by simp [hk], rfl, ?_⟩
  intro p hp
  cases p with
  | sp => simp at hp
  | stack j =>
    have hjk : k.val ≠ j.val := fun h => hp (by simp [Fin.ext h])
    exact Vector.getElem_set_ne (hk ▸ k.isLt) j.isLt (hk ▸ hjk)
  | _ => rfl

theorem State.pop?_spec {s : State} {k : Fin 16} (hk : s.sp.val = k.val + 1) :
    ∃ u, s.pop? = some u ∧ u.pc = s.stack[k.val] ∧ u.sp.val = k.val ∧ SameBut [.sp, .pc] s u := by
  refine ⟨_, State.pop?_of_pos (by omega), by simp [hk], by simp [hk], ?_⟩
  intro p hp
  cases p with
  | sp | pc => simp at hp
  | _ => rfl

/-! #### The skips that compare -/

/-- SE and SNE over the same two bytes: one skips exactly where the other does not (R126 to R129). -/
theorem exec_compareSkips {i j : Instr} {s : State} {a b : Byte} (hi : exec i s = .next (s.skipIf (a == b)))
    (hj : exec j s = .next (s.skipIf (a != b))) :
    ∃ t u, exec i s = .next t ∧ exec j s = .next u ∧
      t.pc.toNat = (s.pc.toNat + (if a = b then 2 else 0)) % 65536 ∧
      u.pc.toNat = (s.pc.toNat + (if a = b then 0 else 2)) % 65536 ∧ SameBut [.pc] s t ∧ SameBut [.pc] s u := by
  refine ⟨_, _, hi, hj, ?_, ?_, sameBut_skipIf s _, sameBut_skipIf s _⟩
  · simp only [State.skipIf_pc, beq_iff_eq]
  · simp only [State.skipIf_pc, bne_iff_ne, ite_not]

/-! #### The low nibble of families 5 and 9 (30_encoding.md R69) -/

theorem decodeWord_family5 (strict : Bool) (w : Word) (h : fieldT w = 0x5) :
    decodeWord strict w = decodeXY0 strict w .seReg := by
  simp [decodeWord, h]

theorem decodeWord_family9 (strict : Bool) (w : Word) (h : fieldT w = 0x9) :
    decodeWord strict w = decodeXY0 strict w .sneReg := by
  simp [decodeWord, h]

/-- What a family read by `decodeXY0` makes of a word `txyn`. -/
theorem decodeWord_patXYN_of_xy0 {t : Nibble} {i : Reg → Reg → Instr}
    (ht : ∀ strict w, fieldT w = t → decodeWord strict w = decodeXY0 strict w i)
    (strict : Bool) (x y : Reg) (n : Nibble) :
    decodeWord strict (patXYN t.toNat x y n) =
      if strict = true ∧ n ≠ 0 then .error (.unknownOpcode (patXYN t.toNat x y n)) else .ok (i x y) := by
  rw [← wordXYN_eq_patXYN, ht strict _ (fieldT_wordXYN t x y n)]
  simp [decodeXY0]

/-! #### The obligations -/

/-- Settles O34, by the two values of SYS_POLICY. -/
theorem sysFollowsItsPolicy : Obligations.SysFollowsItsPolicy := by
  intro strict nnn s
  have hdecode (hcls : nnn ≠ 0x0E0) (hret : nnn ≠ 0x0EE) : decodeWord strict (patA 0x0 nnn) = .ok (.sys nnn) :=
    have hwf : (Instr.sys nnn).wf = true := Bool.and_eq_true_iff.2 ⟨decide_eq_true hcls, decide_eq_true hret⟩
    Laws.decode_patA (t := 0x0) strict hwf rfl
  refine ⟨hdecode, ?_⟩
  cases hpolicy : s.cfg.sysPolicy with
  | nop =>
    have hexec : exec (.sys nnn) s = .next s := by simp only [exec, execSys, hpolicy]
    exact ⟨s, hexec, fun _ => SameBut.refl _ s, nofun⟩
  | fault =>
    have hword : encode (.sys nnn) = patA 0x0 nnn := wordA_eq_patA 0x0 nnn
    obtain ⟨t, hexec, ht⟩ := exec_faults_of_raises (.inl ⟨⟨nnn, rfl⟩, hpolicy, rfl⟩)
    exact ⟨t, hexec, nofun, fun _ => hword ▸ ht⟩

/-- Settles O37: below the bound a push and a jump, at the bound fault entry alone. -/
theorem callPushesOrOverflows : Obligations.CallPushesOrOverflows := by
  intro strict nnn s
  refine ⟨Laws.decode_patA (t := 0x2) strict rfl rfl, fun k hk => ?_, fun hfull => ?_⟩
  · obtain ⟨u, hpush, hslot, hsp, hframe⟩ := State.push?_spec hk
    have hexec : exec (.call nnn) s = .next (u.setPC (addrWord nnn)) := by simp only [exec, execCall, hpush]
    exact ⟨_, hexec, hslot, hsp, addrWord_toNat nnn, hframe.trans (sameBut_setPC u _)⟩
  · have hword : encode (.call nnn) = patA 0x2 nnn := wordA_eq_patA 0x2 nnn
    exact hword ▸ exec_faults_of_raises (.inr (.inl ⟨⟨nnn, rfl⟩, hfull, rfl⟩))

/-- Settles O38: above 0 a pop, at 0 fault entry alone. -/
theorem retPopsOrUnderflows : Obligations.RetPopsOrUnderflows := by
  intro strict s
  refine ⟨Laws.decode_encode strict .ret rfl, fun k hk => ?_, fun hempty => ?_⟩
  · obtain ⟨u, hpop, hpc, hsp, hframe⟩ := State.pop?_spec hk
    have hexec : exec .ret s = .next u := by simp only [exec, execRet, hpop]
    exact ⟨u, hexec, hpc, hsp, hframe⟩
  · exact exec_faults_of_raises (.inr (.inr ⟨rfl, hempty, rfl⟩))

/-- Settles O35: one write of PC. -/
theorem jpSetsPc : Obligations.JpSetsPc := fun strict nnn s =>
  ⟨Laws.decode_patA (t := 0x1) strict rfl rfl, _, rfl, addrWord_toNat nnn, sameBut_setPC s _⟩

/-- Settles O40: the compared bytes are Vx and nn. -/
theorem immediateSkips : Obligations.ImmediateSkips := fun strict _ _ _ =>
  ⟨Laws.decode_patXK (t := 0x3) strict rfl rfl, Laws.decode_patXK (t := 0x4) strict rfl rfl, exec_compareSkips rfl rfl⟩

/-- Settles O41: the compared bytes are Vx and Vy, and the low nibble decides as STRICT_XY0 says. -/
theorem registerSkips : Obligations.RegisterSkips := by
  intro strict x y n s
  have h5 := decodeWord_patXYN_of_xy0 decodeWord_family5 strict x y n
  have h9 := decodeWord_patXYN_of_xy0 decodeWord_family9 strict x y n
  refine ⟨fun hlow => ?_, fun hs hn => ?_, exec_compareSkips rfl rfl⟩
  · have hreads : ¬ (strict = true ∧ n ≠ 0) := by rcases hlow with rfl | rfl <;> simp
    exact ⟨h5.trans (if_neg hreads), h9.trans (if_neg hreads)⟩
  · exact ⟨h5.trans (if_pos ⟨hs, hn⟩), h9.trans (if_pos ⟨hs, hn⟩)⟩

end Sys2Proof.Machine
end

section
/-! The family 43_display: CLS (43_display.md R141). -/

namespace Sys2Proof.Machine

/-- Of every `c`, also past the screen's last cell, where `cell` reads a clear bit. -/
theorem cell_zero (c : Nat) : cell 0 c = false := BitVec.getLsbD_zero

/-- Settles O42: the body draws the clear frame. -/
theorem clsClearsEveryCell : Obligations.ClsClearsEveryCell := by
  intro strict s
  have hexec : exec .cls s = .next (s.draw 0) := rfl
  have hclear (c : Nat) (_ : c < 2048) : cell (s.draw 0).fb c = false := by rw [State.draw_fb, cell_zero]
  exact ⟨Laws.decode_encode strict .cls rfl, s.draw 0, hexec, hclear, State.draw_redraw s 0, sameBut_draw s 0⟩

end Sys2Proof.Machine
end

section
/-! The family 44_keypad_timers: LD Vx, K and the three timer accesses (44_keypad_timers.md R153 to R156). -/

namespace Sys2Proof.Machine

/-! #### The two ends of LD Vx, K (R153) -/

theorem exec_ldVxK_of_firstKey {s : State} {k : Key} (x : Reg) (h : s.firstKey = some k) :
    exec (.ldVxK x) s = .next (s.setReg x (BitVec.ofNat 8 k.val)) := by
  simp only [exec, execLdVxK, h]

theorem exec_ldVxK_of_noKey {s : State} (x : Reg) (h : s.firstKey = none) :
    exec (.ldVxK x) s = .next (s.setPC (s.pc - 2)) := by
  simp only [exec, execLdVxK, h]

theorem keyByte_toNat (k : Key) : (BitVec.ofNat 8 k.val).toNat = k.val :=
  (BitVec.toNat_ofNat k.val 8).trans (Nat.mod_eq_of_lt (k.isLt.trans (by decide)))

/-! #### The timers and the levels at the end of a running step (40_step_loop.md R89, R90) -/

theorem State.finishStep_dt_dly {s : State} (h : s.runState = .running) (tick : Bool) :
    (s.finishStep tick).dt.toNat = s.dt.toNat - (if tick then 1 else 0) ∧
      (s.finishStep tick).dly = decide ((s.finishStep tick).dt ≠ 0) := by
  rw [State.finishStep_running h]
  exact ⟨tickTimer_toNat tick s.dt, State.driveLevels_dly _⟩

theorem State.finishStep_st_snd {s : State} (h : s.runState = .running) (tick : Bool) :
    (s.finishStep tick).st.toNat = s.st.toNat - (if tick then 1 else 0) ∧
      (s.finishStep tick).snd = decide ((s.finishStep tick).st ≠ 0) := by
  rw [State.finishStep_running h]
  exact ⟨tickTimer_toNat tick s.st, State.driveLevels_snd _⟩

/-! #### The obligations -/

/-- Settles O46, by whether a key is pressed: a register write, or PC put back by the 2 the fetch added. -/
theorem waitForKeyTakesLowestOrPolls : Obligations.WaitForKeyTakesLowestOrPolls := by
  intro strict x s
  refine ⟨Laws.decode_patXK (t := 0xF) strict rfl rfl, fun k hdown hlowest => ?_, fun hnone => ?_⟩
  · obtain ⟨t, hexec, hreg, hframe⟩ := exec_of_setReg (exec_ldVxK_of_firstKey x (State.firstKey_some hdown hlowest))
    exact ⟨t, hexec, hreg ▸ keyByte_toNat k, hframe⟩
  · have hexec := exec_ldVxK_of_noKey x (State.firstKey_none.2 hnone)
    exact ⟨_, hexec, BitVec.sub_add_cancel s.pc 2, sameBut_setPC s _⟩

/-- Settles O47: each body is one write, which keeps RUNSTATE, so the gate then sees the timer just set. -/
theorem timerAccess : Obligations.TimerAccess := by
  intro strict tick x s
  refine ⟨Laws.decode_patXK (t := 0xF) strict rfl rfl, Laws.decode_patXK (t := 0xF) strict rfl rfl,
    Laws.decode_patXK (t := 0xF) strict rfl rfl, exec_of_setReg rfl, ?_, ?_⟩
  · have hexec : exec (.ldDTVx x) s = .next (s.setDT (s.reg x)) := rfl
    have hkeep : (s.setDT (s.reg x)).runState = s.runState := State.setDT_runState s _
    exact ⟨_, hexec, State.setDT_dt s _, sameBut_setDT s _, fun hrun => State.finishStep_dt_dly (hkeep.trans hrun) tick⟩
  · have hexec : exec (.ldSTVx x) s = .next (s.setST (s.reg x)) := rfl
    have hkeep : (s.setST (s.reg x)).runState = s.runState := State.setST_runState s _
    exact ⟨_, hexec, State.setST_st s _, sameBut_setST s _, fun hrun => State.finishStep_st_snd (hkeep.trans hrun) tick⟩

end Sys2Proof.Machine
end

section
/-! The family 45_index_memory: LD I, addr and LD F, Vx (45_index_memory.md R161, R163). -/

namespace Sys2Proof.Machine

/-! #### The shape of a body that writes the index register alone -/

theorem exec_of_setI {i : Instr} {s : State} {w : Word} (h : exec i s = .next (s.setI w)) :
    ∃ t, exec i s = .next t ∧ t.i = w ∧ SameBut [.i] s t :=
  ⟨_, h, State.setI_i s w, sameBut_setI s w⟩

/-! #### The obligations -/

/-- Settles O48: each body is one write of I, of the address nnn or of the glyph address of Vx. -/
theorem ldIAndLdFSetTheIndex : Obligations.LdIAndLdFSetTheIndex := by
  intro strict x nnn s
  refine ⟨Laws.decode_patA (t := 0xA) strict rfl rfl, Laws.decode_patXK (t := 0xF) strict rfl rfl, ?_, ?_⟩
  · obtain ⟨t, hexec, hi, hframe⟩ := exec_of_setI (rfl : exec (.ldI nnn) s = .next (s.setI (addrWord nnn)))
    exact ⟨t, hexec, hi ▸ addrWord_toNat nnn, hframe⟩
  · obtain ⟨t, hexec, hi, hframe⟩ := exec_of_setI (rfl : exec (.ldF x) s = .next (s.setI (glyphAddr (s.reg x))))
    exact ⟨t, hexec, hi ▸ glyphAddr_toNat (s.reg x), hframe⟩

end Sys2Proof.Machine
end

section
/-! The family other, encoding: the decoder against the encoder, and the illegal words (30_encoding.md R60 to R71). -/

namespace Sys2Proof.Machine

/-! #### The round trips -/

/-- The low nibble cleared, on the word's number. -/
theorem wordXYN_zero_toNat (w : Word) :
    (wordXYN (fieldT w) (fieldX w) (fieldY w) 0).toNat = w.toNat / 0x10 * 0x10 := by
  have hzero : (0 : Nibble).toNat = 0 := rfl
  rw [wordXYN_toNat, fieldT_toNat, fieldX_val, fieldY_val, hzero]
  omega

/-- Settles O1: the two bytes are put together again, and the word decodes to its instruction. -/
theorem decodeGivesBackEncodedBytes : Obligations.DecodeGivesBackEncodedBytes := by
  intro strict i rest hwf
  rw [encodeBytes, decodeBytes_bytesOfWord, Laws.decode_encode strict i hwf]
  rfl

/-- Settles O2: only `decodeXY0` drops bits, the low nibble of its word. -/
theorem encodeGivesBackDecodedWord : Obligations.EncodeGivesBackDecodedWord := by
  intro strict w i hdecode
  obtain ⟨hwf, hword | ⟨hstrict, hfamily, hword⟩⟩ := encode_of_decode hdecode
  · exact ⟨hwf, .inl hword⟩
  · exact ⟨hwf, .inr ⟨hstrict, hfamily, hword ▸ wordXYN_zero_toNat w⟩⟩

/-- Settles O5: each word is the encoding of its instruction. -/
theorem sampleWordsDecode : Obligations.SampleWordsDecode := fun strict =>
  ⟨Laws.decode_encode strict .cls rfl, Laws.decode_encode strict (.sys 0x1E0) rfl,
    Laws.decode_encode strict (.jp 0xABC) rfl, Laws.decode_encode strict (.addImm 3 0x05) rfl,
    Laws.decode_encode strict (.addReg 1 2) rfl, Laws.decode_encode strict (.drw 1 2 5) rfl,
    Laws.decode_encode strict (.sknp 5) rfl, Laws.decode_encode strict (.ldVxMem 2) rfl⟩

/-! #### What each family rejects -/

theorem decodeFamily0_ne_error (w : Word) (e : Reject) : decodeFamily0 w ≠ .error e := by
  unfold decodeFamily0
  split
  · nofun
  · split <;> nofun

theorem decodeXY0_eq_error_iff {strict : Bool} {w : Word} {i : Reg → Reg → Instr} {e : Reject} :
    decodeXY0 strict w i = .error e ↔ e = .unknownOpcode w ∧ strict = true ∧ w.toNat % 0x10 ≠ 0 := by
  have hlow : fieldN w = 0#4 ↔ w.toNat % 0x10 = 0 := by rw [← fieldN_toNat, ← BitVec.toNat_inj]; rfl
  by_cases hzero : fieldN w = 0#4
  · simp [decodeXY0, hzero, hlow.1 hzero]
  · have hnonzero : w.toNat % 0x10 ≠ 0 := mt hlow.2 hzero
    cases strict <;> simp [decodeXY0, hzero, hnonzero, eq_comm (a := e)]

theorem decodeFamily8_eq_error_iff {w : Word} {e : Reject} :
    decodeFamily8 w = .error e ↔
      e = .unknownOpcode w ∧ w.toNat % 0x10 ∈ [0x8, 0x9, 0xA, 0xB, 0xC, 0xD, 0xF] := by
  have hlt : (fieldN w).toNat < 16 := (fieldN w).isLt
  rw [← fieldN_toNat, decodeFamily8]
  generalize (fieldN w).toNat = n at hlt
  interval_cases n <;> simp [eq_comm]

theorem decodeFamilyE_eq_error_iff {w : Word} {e : Reject} :
    decodeFamilyE w = .error e ↔ e = .unknownOpcode w ∧ w.toNat % 0x100 ∉ [0x9E, 0xA1] := by
  rw [← fieldNN_toNat, decodeFamilyE]
  split <;> simp_all [eq_comm]

theorem decodeFamilyF_eq_error_iff {w : Word} {e : Reject} :
    decodeFamilyF w = .error e ↔
      e = .unknownOpcode w ∧ w.toNat % 0x100 ∉ [0x07, 0x0A, 0x15, 0x18, 0x1E, 0x29, 0x33, 0x55, 0x65] := by
  rw [← fieldNN_toNat, decodeFamilyF]
  split <;> simp_all [eq_comm]

/-- R71's table, with the words that STRICT_XY0 adds. -/
def IllegalWord (strict : Bool) (w : Word) : Prop :=
  (w.toNat / 0x1000 = 0x8 ∧ w.toNat % 0x10 ∈ [0x8, 0x9, 0xA, 0xB, 0xC, 0xD, 0xF]) ∨
  (w.toNat / 0x1000 = 0xE ∧ w.toNat % 0x100 ∉ [0x9E, 0xA1]) ∨
  (w.toNat / 0x1000 = 0xF ∧ w.toNat % 0x100 ∉ [0x07, 0x0A, 0x15, 0x18, 0x1E, 0x29, 0x33, 0x55, 0x65]) ∨
  (strict = true ∧ (w.toNat / 0x1000 = 0x5 ∨ w.toNat / 0x1000 = 0x9) ∧ w.toNat % 0x10 ≠ 0)

/-- The decoder rejects the illegal words, each by name, and no other: by the family of the word. -/
theorem decodeWord_eq_error_iff {strict : Bool} {w : Word} {e : Reject} :
    decodeWord strict w = .error e ↔ e = .unknownOpcode w ∧ IllegalWord strict w := by
  have hlt : (fieldT w).toNat < 16 := (fieldT w).isLt
  rw [IllegalWord, ← fieldT_toNat, decodeWord]
  generalize (fieldT w).toNat = t at hlt
  interval_cases t <;>
    simp [decodeFamily0_ne_error, decodeXY0_eq_error_iff, decodeFamily8_eq_error_iff, decodeFamilyE_eq_error_iff,
      decodeFamilyF_eq_error_iff]

/-- Settles O3. -/
theorem rejectedWordsAreTheIllegalOnes : Obligations.RejectedWordsAreTheIllegalOnes := fun _ _ =>
  ⟨decodeWord_eq_error_iff.trans (and_iff_right rfl), fun _ h => (decodeWord_eq_error_iff.1 h).1⟩

end Sys2Proof.Machine
end

section
/-! The family other, the moves of the host and the input bridge (70_reset_and_hazards.md R210 to R214; 10_state.md
R19). -/

namespace Sys2Proof.Machine

/-! #### Reset -/

/-- Outside the font Reset leaves zero bytes. -/
theorem resetByte_eq_zero {a : Nat} (h : a < 0x050 ∨ 0x0A0 ≤ a) : resetByte a = 0 := by
  rw [resetByte, if_neg]
  simp only [fontBase]
  omega

/-- Inside it, the font (R211). -/
theorem resetByte_font : (List.range 80).map (fun k => resetByte (0x050 + k)) = fontData := by decide

/-- Settles O21: the memory after Reset is the empty list, so every read gives the reset byte. -/
theorem resetLeavesTheSpecsValues : Obligations.ResetLeavesTheSpecsValues := by
  intro s ms ha
  have hstep : step s = .next (State.hostReset { s with agenda := ms }) := by simp only [step, nextMove, ha]
  have hreg (x : Reg) : (State.hostReset { s with agenda := ms }).reg x = 0 := Vector.getElem_replicate x.isLt
  have hstack (k : Fin 16) : (State.hostReset { s with agenda := ms }).stack[k.val] = 0 :=
    Vector.getElem_replicate k.isLt
  have hkey (k : Key) : (State.hostReset { s with agenda := ms }).keyDown k = false := Vector.getElem_replicate k.isLt
  exact ⟨_, hstep, hreg, rfl, rfl, rfl, hstack, rfl, rfl, hkey, cell_zero, rfl, rfl, rfl, rfl, rfl, rfl, rfl,
    fun _ => resetByte_eq_zero, resetByte_font⟩

/-! #### Load -/

/-- What Load leaves at an address: the image's byte inside the part that fits, the old byte outside. -/
theorem State.read_hostLoad (s : State) (image : List Byte) (a : Nat) :
    (s.hostLoad image).mem.read a =
      (s.mem.writeBytes programOrigin (image.take maxImage)).read a := by
  unfold State.hostLoad
  split <;> rfl

theorem State.read_hostLoad_image (s : State) {image : List Byte} {k : Nat} (h : k < image.length) (hk : k < 3584) :
    (s.hostLoad image).mem.read (0x200 + k) = image[k] := by
  rw [State.read_hostLoad, Memory.read_writeBytes, dif_pos]
  · simp [programOrigin]
  · simp only [List.length_take, programOrigin, maxImage]
    omega

theorem State.read_hostLoad_outside (s : State) {image : List Byte} {a : Nat}
    (h : a < 0x200 ∨ 0x200 + min image.length 3584 ≤ a) : (s.hostLoad image).mem.read a = s.mem.read a := by
  rw [State.read_hostLoad, Memory.read_writeBytes, dif_neg]
  simp only [List.length_take, programOrigin, maxImage]
  omega

@[simp] theorem State.hostLoad_pc (s : State) (image : List Byte) : (s.hostLoad image).pc = 0x0200 := by
  unfold State.hostLoad; split <;> rfl

@[simp] theorem State.hostLoad_fault (s : State) (image : List Byte) : (s.hostLoad image).fault = none := by
  unfold State.hostLoad; split <;> rfl

@[simp] theorem State.hostLoad_lpc (s : State) (image : List Byte) : (s.hostLoad image).lpc = 0 := by
  unfold State.hostLoad; split <;> rfl

@[simp] theorem State.hostLoad_cfg (s : State) (image : List Byte) : (s.hostLoad image).cfg = s.cfg := by
  unfold State.hostLoad; split <;> rfl

theorem State.hostLoad_of_fits (s : State) {image : List Byte} (h : image.length ≤ 3584) :
    (s.hostLoad image).runFlag = true ∧ (s.hostLoad image).runState = .running := by
  have hfits : ¬ maxImage < image.length := by simp only [maxImage]; omega
  rw [State.hostLoad, if_neg hfits]
  exact ⟨rfl, rfl⟩

theorem State.hostLoad_of_truncated (s : State) {image : List Byte} (h : 3584 < image.length) :
    (s.hostLoad image).runFlag = s.runFlag ∧ (s.hostLoad image).runState = .idle := by
  rw [State.hostLoad, if_pos (show maxImage < image.length from h)]
  exact ⟨rfl, rfl⟩

theorem State.hostLoad_runState (s : State) (image : List Byte) :
    (s.hostLoad image).runState = if image.length ≤ 3584 then .running else .idle := by
  split
  · exact (s.hostLoad_of_fits ‹_›).2
  · exact (s.hostLoad_of_truncated (by omega)).2

/-- The frame of a Load taken from the queue. -/
theorem sameBut_hostLoad (s : State) (image : List Byte) (ms : List Move) :
    SameBut ([.pc, .fault, .lpc, .runFlag, .runState, .agenda] ++
      (List.range 3584).map fun k => Part.mem (0x200 + k)) s (State.hostLoad { s with agenda := ms } image) := by
  intro p hp
  cases p with
  | mem a =>
    refine State.read_hostLoad_outside { s with agenda := ms } ?_
    by_contra hin
    have hk : a - 0x200 < 3584 := by omega
    have haddr : 0x200 + (a - 0x200) = a := by omega
    exact hp (List.mem_append_right _ (List.mem_map.2 ⟨_, List.mem_range.2 hk, congrArg Part.mem haddr⟩))
  | pc | fault | lpc | runFlag | runState | agenda => simp at hp
  | _ => unfold State.hostLoad; split <;> rfl

/-- Settles O22, by what Load leaves in each element. -/
theorem loadPlacesTheImage : Obligations.LoadPlacesTheImage := by
  intro s image ms ha
  have hstep : step s = .next (State.hostLoad { s with agenda := ms } image) := by simp only [step, nextMove, ha]
  exact ⟨_, hstep, fun _ h hk => State.read_hostLoad_image _ h hk, fun _ h => State.read_hostLoad_outside _ h,
    State.hostLoad_pc _ image, State.hostLoad_fault _ image, State.hostLoad_lpc _ image,
    State.hostLoad_of_fits _, State.hostLoad_of_truncated _, rfl, sameBut_hostLoad s image ms⟩

/-! #### Stop and the keys -/

/-- The queue is the one part that a move of another agent takes from. -/
theorem sameBut_agenda (s : State) (ms : List Move) : SameBut [.agenda] s { s with agenda := ms } := by
  intro p hp
  cases p with
  | agenda => simp at hp
  | _ => rfl

theorem sameBut_requestStop (s : State) : SameBut [.runFlag] s s.requestStop := by
  intro p hp
  cases p with
  | runFlag => simp at hp
  | _ => rfl

theorem State.setKey_keyDown_same (s : State) (k : Key) (p : Bool) : (s.setKey k p).keyDown k = p :=
  Vector.getElem_set_self k.isLt

theorem sameBut_setKey (s : State) (k : Key) (p : Bool) : SameBut [.key k] s (s.setKey k p) := by
  intro q hq
  cases q with
  | key j =>
    have hne : k.val ≠ j.val := fun h => hq (by simp [Fin.ext h])
    exact Vector.getElem_set_ne k.isLt j.isLt hne
  | _ => rfl

/-- Settles O23: the queue loses the move, and the move writes its flag. -/
theorem stopAndKeyMovesWriteOneFlag : Obligations.StopAndKeyMovesWriteOneFlag := by
  refine fun s ms => ⟨fun ha => ?_, fun k p ha => ?_⟩
  · have hstep : step s = .next (State.requestStop { s with agenda := ms }) := by simp only [step, nextMove, ha]
    exact ⟨_, hstep, rfl, rfl, ((sameBut_agenda s ms).trans (sameBut_requestStop _)).mono (by simp)⟩
  · have hstep : step s = .next (State.setKey { s with agenda := ms } k p) := by simp only [step, nextMove, ha]
    exact ⟨_, hstep, State.setKey_keyDown_same _ k p, rfl,
      ((sameBut_agenda s ms).trans (sameBut_setKey _ k p)).mono (by simp)⟩

end Sys2Proof.Machine
end

section
/-! The family other, the machine's step: which steps answer and what each end of a core step leaves (40_step_loop.md
R80 to R91; 60_exceptions.md R180 to R190). -/

namespace Sys2Proof.Machine

/-! #### The fetch (20_memory.md R44) -/

/-- At a fetchable address the mask of the two reads is idle. -/
theorem State.fetch_toNat (s : State) {a : Word} (h : a.toNat ≤ 0xFFE) :
    (s.fetch a).toNat = (s.mem.read a.toNat).toNat * 0x100 + (s.mem.read (a.toNat + 1)).toNat := by
  have hhi : a.toNat % memSize = a.toNat := Nat.mod_eq_of_lt (by simp only [memSize]; omega)
  have hlo : (a.toNat + 1) % memSize = a.toNat + 1 := Nat.mod_eq_of_lt (by simp only [memSize]; omega)
  rw [State.fetch, wordOfBytes, toNat_append', State.memRead, State.memRead, hhi, hlo]
  rfl

/-- Settles O7. -/
theorem fetchIsBigEndian : Obligations.FetchIsBigEndian := fun s _ h => s.fetch_toNat h

/-! #### The moves that answer and the one stop -/

theorem Invokes.runState {s s0 : State} {tick : Bool} {rnd : Byte} (h : Invokes s tick rnd s0) :
    s0.runState = s.runState := by
  rw [h.eq]

theorem Invokes.key {s s0 : State} {tick : Bool} {rnd : Byte} (h : Invokes s tick rnd s0) : s0.key = s.key := by
  rw [h.eq]

theorem Invokes.runFlag {s s0 : State} {tick : Bool} {rnd : Byte} (h : Invokes s tick rnd s0) :
    s0.runFlag = s.runFlag := by
  rw [h.eq]

theorem Invokes.cfg {s s0 : State} {tick : Bool} {rnd : Byte} (h : Invokes s tick rnd s0) : s0.cfg = s.cfg := by
  rw [h.eq]

/-- A move that is no core step always answers. -/
theorem step_invokes_or_next (s : State) : (∃ tick rnd s0, Invokes s tick rnd s0) ∨ ∃ t, step s = .next t := by
  cases ha : s.agenda with
  | nil => exact .inl ⟨_, _, _, .inr ⟨ha, rfl, rfl, rfl⟩⟩
  | cons m ms =>
    cases m with
    | invoke tick rnd => exact .inl ⟨tick, rnd, _, .inl ⟨ms, ha, rfl⟩⟩
    | setKey | stop | reset | load => exact .inr ⟨_, by simp only [step, nextMove, ha]; rfl⟩

theorem coreStep_ne_refused (tick : Bool) (rnd : Byte) (s : State) (r : Refusal) : coreStep tick rnd s ≠ .refused r := by
  by_cases hr : s.runState = .running
  · obtain ⟨t, ht⟩ := coreStep_next hr tick rnd
    rw [ht]; nofun
  · rw [coreStep_atRest hr]; nofun

theorem coreStep_eq_fault_iff {tick : Bool} {rnd : Byte} {s : State} {f : Fault} :
    coreStep tick rnd s = .fault f ↔ f = .coreAtRest s.runState ∧ s.runState ≠ .running := by
  by_cases hr : s.runState = .running
  · obtain ⟨t, ht⟩ := coreStep_next hr tick rnd
    simp [ht, hr]
  · simp [coreStep_atRest hr, hr, eq_comm]

/-- Settles O11: a core step stops exactly at rest, and every other move answers. -/
theorem stepStopsExactlyAtRest : Obligations.StepStopsExactlyAtRest := by
  intro s
  by_cases hcore : ∃ tick rnd s0, Invokes s tick rnd s0
  · obtain ⟨tick, rnd, s0, hi⟩ := id hcore
    rw [step_of_invokes hi, ← hi.runState]
    refine ⟨coreStep_ne_refused tick rnd s0, fun f => coreStep_eq_fault_iff.trans ?_⟩
    rw [and_iff_left hcore]
  · obtain ⟨t, ht⟩ := (step_invokes_or_next s).resolve_left hcore
    simp [ht, hcore]

/-! #### The ends of a core step -/

/-- Settles O6: the decoded word's body, then the gate and the levels unless it faulted. -/
theorem stepRunsDecodedInstruction : Obligations.StepRunsDecodedInstruction := by
  intro s s0 tick rnd i hi hs hd
  obtain ⟨t, ht⟩ := exec_next i (s0.fetched rnd)
  refine ⟨t, ht, ?_⟩
  have hstep : step s = runBody i tick (s0.fetched rnd) := by
    rw [step_of_invokes hi, coreStep_decode hs, hd]
  rw [hstep, runBody, ht]
  rfl

/-- Settles O9: fault entry from the state before the fetch. -/
theorem unfetchablePcRaisesRunaway : Obligations.UnfetchablePcRaisesRunaway := by
  intro s s0 tick rnd hi hr hf hp
  have hstep : step s = .next s0.raiseRunaway := (step_of_invokes hi).trans (coreStep_runaway hr hf hp tick rnd)
  exact ⟨_, hstep, rfl, rfl, rfl, sameBut_raise s0 .runaway none s0.pc (some s0.lpc)⟩

/-- Fault entry after the fetch: what S3 and S4 wrote and the record, nothing else. -/
theorem sameBut_fetched_raise (s : State) (rnd : Byte) (c : FatalCondition) (o : Option Word) (a : Word)
    (l : Option Word) :
    SameBut [.fault, .runState, .redraw, .pc, .lpc, .rndIn] s ((s.fetched rnd).raise c o a l) :=
  ((sameBut_fetched s rnd).trans (sameBut_raise _ c o a l)).mono (by simp)

/-- Settles O10: fault entry in place of the body. -/
theorem illegalWordRaisesUnknownOpcode : Obligations.IllegalWordRaisesUnknownOpcode := by
  intro s s0 tick rnd e hi hs hd
  have hstep : step s = .next ((s0.fetched rnd).raise .unknownOpcode (some s0.fetchedWord) s0.pc none) := by
    rw [step_of_invokes hi, coreStep_decode hs, hd]
  exact ⟨_, hstep, rfl, rfl, rfl, rfl, rfl, sameBut_fetched_raise s0 rnd _ _ _ _⟩

/-- Settles O12: only a step that completes its instruction ends RUNNING. -/
theorem timersCountDownAtTheGate : Obligations.TimersCountDownAtTheGate := by
  intro s s0 t tick rnd hi h
  rw [step_of_invokes hi] at h
  obtain ⟨hr, ends⟩ := coreStep_cases h
  cases ends with
  | stopped hf ht => subst ht; exact ⟨nofun, fun _ => ⟨rfl, rfl, rfl, rfl, rfl⟩⟩
  | runaway hf hp ht => subst ht; exact ⟨nofun, fun _ => ⟨rfl, rfl, rfl, rfl, rfl⟩⟩
  | illegal hs e hd ht => subst ht; exact ⟨nofun, fun _ => ⟨rfl, rfl, rfl, rfl, rfl⟩⟩
  | raised hs i c hd hc ht => subst ht; exact ⟨nofun, fun _ => ⟨rfl, rfl, rfl, rfl, rfl⟩⟩
  | done hs i u hd hn hu hq ht =>
    have hrun : u.runState = .running := hq.runState.trans hr
    rw [← State.finishStep_running hrun] at ht
    subst ht
    obtain ⟨hdt, hdly⟩ := State.finishStep_dt_dly hrun tick
    obtain ⟨hst, hsnd⟩ := State.finishStep_st_snd hrun tick
    have hframe := sameBut_finishStep u tick
    exact ⟨fun _ => ⟨i, u, hd, hu, hdt, hst, hsnd, hdly, hframe .redraw (by simp), hframe⟩,
      fun hstop => absurd ((hframe .runState (by simp)).trans hrun) hstop⟩

/-- Settles O14: every faulting end is fault entry, before the fetch for Runaway and after it for the others. -/
theorem fatalConditionsArePrecise : Obligations.FatalConditionsArePrecise := by
  intro s s0 t tick rnd hi hr hf h hfaulted
  rw [step_of_invokes hi] at h
  obtain ⟨-, ends⟩ := coreStep_cases h
  cases ends with
  | stopped hstop ht => rw [hf] at hstop; cases hstop
  | runaway _ hp ht =>
    subst ht
    exact ⟨(sameBut_raise s0 _ _ _ _).mono (by simp), rfl, fun hle => absurd hp (by omega), fun _ => ⟨rfl, rfl, rfl⟩⟩
  | illegal hs e hd ht =>
    subst ht
    exact ⟨sameBut_fetched_raise s0 rnd _ _ _ _, rfl, fun _ => ⟨rfl, rfl, _, rfl⟩, fun hp => absurd hs.2.2 (by omega)⟩
  | raised hs i c hd hc ht =>
    subst ht
    exact ⟨sameBut_fetched_raise s0 rnd _ _ _ _, rfl, fun _ => ⟨rfl, rfl, _, rfl⟩, fun hp => absurd hs.2.2 (by omega)⟩
  | done hs i u hd hn hu hq ht =>
    subst ht
    have hrun : u.runState = .running := hq.runState.trans hr
    rw [State.driveLevels_runState, State.timerGate_runState, hrun] at hfaulted
    cases hfaulted

/-! #### The four conditions -/

/-- The conditions of 60_exceptions.md R180, on the state before the fetch. -/
def FaultCondition (s : State) : FatalCondition → Prop
  | .runaway => 0xFFE < s.pc.toNat
  | .unknownOpcode => s.pc.toNat ≤ 0xFFE ∧
      ((∃ e, decodeWord s.cfg.strictXY0 s.fetchedWord = .error e) ∨
        (s.cfg.sysPolicy = .fault ∧ ∃ nnn, decodeWord s.cfg.strictXY0 s.fetchedWord = .ok (.sys nnn)))
  | .stackOverflow => s.pc.toNat ≤ 0xFFE ∧ s.sp = 16 ∧
      ∃ nnn, decodeWord s.cfg.strictXY0 s.fetchedWord = .ok (.call nnn)
  | .stackUnderflow => s.pc.toNat ≤ 0xFFE ∧ s.sp = 0 ∧ decodeWord s.cfg.strictXY0 s.fetchedWord = .ok .ret

theorem faultCondition_of_unfetchable {s : State} (hp : 0xFFE < s.pc.toNat) (c : FatalCondition) :
    FaultCondition s c ↔ c = .runaway := by
  have hle : ¬ s.pc.toNat ≤ 0xFFE := by omega
  cases c <;> simp [FaultCondition, hp, hle]

theorem faultCondition_of_illegal {s : State} {e : Reject} (hp : s.pc.toNat ≤ 0xFFE)
    (hd : decodeWord s.cfg.strictXY0 s.fetchedWord = .error e) (c : FatalCondition) :
    FaultCondition s c ↔ c = .unknownOpcode := by
  have hlt : ¬ 0xFFE < s.pc.toNat := by omega
  cases c <;> simp [FaultCondition, hp, hlt, hd]

theorem State.sp_eq_16_iff (s : State) : s.sp = 16 ↔ s.sp.val = 16 := Fin.ext_iff

/-- For a word that decodes, the condition is the one its instruction raises. -/
theorem faultCondition_of_decodes {s : State} {i : Instr} (hp : s.pc.toNat ≤ 0xFFE)
    (hd : decodeWord s.cfg.strictXY0 s.fetchedWord = .ok i) (c : FatalCondition) :
    FaultCondition s c ↔ Raises i s c := by
  have hlt : ¬ 0xFFE < s.pc.toNat := by omega
  cases c with
  | runaway => simp [FaultCondition, Raises, hlt]
  | unknownOpcode => simp [FaultCondition, Raises, hp, hd, and_comm]
  | stackOverflow => simp [FaultCondition, Raises, hp, hd, and_comm, s.sp_eq_16_iff]
  | stackUnderflow => simp [FaultCondition, Raises, hp, hd, and_comm]

/-- An instruction raises at most one condition. -/
theorem Raises.unique {i : Instr} {s : State} {c c' : FatalCondition} (h : Raises i s c) : Raises i s c' ↔ c = c' := by
  obtain ⟨⟨nnn, rfl⟩, hp, rfl⟩ | ⟨⟨nnn, rfl⟩, hp, rfl⟩ | ⟨rfl, hp, rfl⟩ := h <;> simp [Raises, hp, eq_comm]

/-- Of a core step with RUNFLAG set: it faults with exactly the cause whose condition holds. -/
theorem coreStep_faults_iff {tick : Bool} {rnd : Byte} {s t : State} (hf : s.runFlag = true)
    (h : coreStep tick rnd s = .next t) (c : FatalCondition) :
    (t.runState = .faulted ∧ ∃ f, t.fault = some f ∧ f.cause = c) ↔ FaultCondition s c := by
  obtain ⟨hr, ends⟩ := coreStep_cases h
  cases ends with
  | stopped hstop ht => rw [hf] at hstop; cases hstop
  | runaway _ hp ht =>
    subst ht
    simp [faultCondition_of_unfetchable hp, State.raiseRunaway, eq_comm]
  | illegal hs e hd ht =>
    subst ht
    simp [faultCondition_of_illegal hs.2.2 hd, eq_comm]
  | raised hs i c' hd hc ht =>
    subst ht
    simp [faultCondition_of_decodes hs.2.2 hd, hc.unique]
  | done hs i u hd hn hu hq ht =>
    subst ht
    simp [faultCondition_of_decodes hs.2.2 hd, hn c, hq.runState.trans hr]

/-- Settles O13. -/
theorem stepFaultsExactlyOnTheFourConditions : Obligations.StepFaultsExactlyOnTheFourConditions := by
  intro s s0 t tick rnd c hi hr hf h
  rw [step_of_invokes hi] at h
  refine (coreStep_faults_iff hf h c).trans ?_
  cases c <;> rfl

/-! #### Run control, keys and parameters -/

/-- A core step leaves RUNNING only for STOPPED or FAULTED (10_state.md R21). -/
theorem coreStep_runState {tick : Bool} {rnd : Byte} {s t : State} (h : coreStep tick rnd s = .next t) :
    s.runState = .running ∧ (t.runState = .running ∨ t.runState = .stopped ∨ t.runState = .faulted) := by
  obtain ⟨hr, ends⟩ := coreStep_cases h
  refine ⟨hr, ?_⟩
  cases ends with
  | stopped hf ht => subst ht; exact .inr (.inl rfl)
  | runaway hf hp ht => subst ht; exact .inr (.inr rfl)
  | illegal hs e hd ht => subst ht; exact .inr (.inr rfl)
  | raised hs i c hd hc ht => subst ht; exact .inr (.inr rfl)
  | done hs i u hd hn hu hq ht => subst ht; exact .inl (hq.runState.trans hr)

theorem coreStep_keeps {tick : Bool} {rnd : Byte} {s t : State} (h : coreStep tick rnd s = .next t) :
    t.cfg = s.cfg ∧ t.key = s.key ∧ t.runFlag = s.runFlag := by
  obtain ⟨-, ends⟩ := coreStep_cases h
  cases ends with
  | stopped hf ht => subst ht; exact ⟨rfl, rfl, rfl⟩
  | runaway hf hp ht => subst ht; exact ⟨rfl, rfl, rfl⟩
  | illegal hs e hd ht => subst ht; exact ⟨rfl, rfl, rfl⟩
  | raised hs i c hd hc ht => subst ht; exact ⟨rfl, rfl, rfl⟩
  | done hs i u hd hn hu hq ht => subst ht; exact ⟨hq.cfg, hq.key, hq.runFlag⟩

/-- Settles O15, move by move. -/
theorem runStateTransitions : Obligations.RunStateTransitions := by
  intro s t h
  cases step_cases h with
  | invoke tick rnd s0 hi ht =>
    obtain ⟨hr, hends⟩ := coreStep_runState ht
    have hhead : ∀ m ∈ s.agenda.head?, m = .invoke tick rnd := by
      obtain ⟨ms, ha, -⟩ | ⟨ha, -⟩ := hi <;> simp [ha]
    have hrun : s.runState = .running := hi.runState.symm.trans hr
    exact ⟨fun hm => absurd (hhead _ hm) nofun, fun b hm => absurd (hhead _ hm) nofun,
      fun _ _ => hends.imp (·.trans hrun.symm) fun hend => ⟨hrun, hend⟩⟩
  | setKey k p ms ha ht => subst ht; simp [ha]
  | stop ms ha ht => subst ht; simp [ha]
  | reset ms ha ht => subst ht; exact ⟨fun _ => rfl, by simp [ha], by simp [ha]⟩
  | load b ms ha ht => subst ht; simp [ha, State.hostLoad_runState]

/-- Settles O17, move by move; the moves that write KEY or RUNFLAG are no core steps. -/
theorem coreStepKeepsKeysAndRunFlag : Obligations.CoreStepKeepsKeysAndRunFlag := by
  intro s t h
  refine ⟨?_, fun tick rnd s0 hi => ?_⟩
  · cases step_cases h with
    | invoke tick rnd s0 hi ht => exact (coreStep_keeps ht).1.trans hi.cfg
    | setKey k p ms ha ht => subst ht; rfl
    | stop ms ha ht => subst ht; rfl
    | reset ms ha ht => subst ht; rfl
    | load b ms ha ht => subst ht; exact State.hostLoad_cfg _ b
  · rw [step_of_invokes hi] at h
    obtain ⟨-, hkey, hflag⟩ := coreStep_keeps h
    exact ⟨hkey.trans hi.key, hflag.trans hi.runFlag⟩

end Sys2Proof.Machine
end

section
/-! The family other, the invariant: Reset establishes it and every move keeps it (10_state.md R14, R21 to R23, R32,
R33; 20_memory.md R40; 70_reset_and_hazards.md R210 to R214). -/

namespace Sys2Proof.Machine

/-! #### The moves of the other agents -/

/-- The invariant does not look at the queue or the draw counter. -/
theorem State.Inv.withQueue {s : State} (h : s.Inv) (ms : List Move) (n : Nat) :
    State.Inv { s with agenda := ms, drawCount := n } :=
  ⟨h.mem_wf, h.pc_le, h.stack_le, h.lpc_le, h.snd_level, h.dly_level, h.fault_iff, h.fault_wf⟩

theorem State.Inv.setKey {s : State} (h : s.Inv) (k : Key) (p : Bool) : (s.setKey k p).Inv :=
  ⟨h.mem_wf, h.pc_le, h.stack_le, h.lpc_le, h.snd_level, h.dly_level, h.fault_iff, h.fault_wf⟩

theorem State.Inv.requestStop {s : State} (h : s.Inv) : s.requestStop.Inv :=
  ⟨h.mem_wf, h.pc_le, h.stack_le, h.lpc_le, h.snd_level, h.dly_level, h.fault_iff, h.fault_wf⟩

theorem State.inv_reset : State.reset.Inv where
  mem_wf := Memory.wf_nil
  pc_le := Nat.zero_le _
  stack_le k := by simp [State.reset]
  lpc_le := Nat.zero_le _
  snd_level := rfl
  dly_level := rfl
  fault_iff := rfl
  fault_wf := nofun

/-- Reset keeps RUNFLAG, the inputs and the parameters, none of which the invariant looks at. -/
theorem State.inv_hostReset (s : State) : s.hostReset.Inv :=
  have h := State.inv_reset
  ⟨h.mem_wf, h.pc_le, h.stack_le, h.lpc_le, h.snd_level, h.dly_level, h.fault_iff, h.fault_wf⟩

theorem Memory.wf_loadImage {m : Memory} (h : m.wf) (image : List Byte) :
    (m.writeBytes programOrigin (image.take maxImage)).wf := by
  refine Memory.wf_writeBytes h _ ?_
  have hlen := List.length_take_le maxImage image
  simp only [programOrigin, maxImage, memSize] at hlen ⊢
  omega

/-- Load writes inside memory, and leaves no record and a run state that is not FAULTED. -/
theorem State.Inv.hostLoad {s : State} (h : s.Inv) (image : List Byte) : (s.hostLoad image).Inv := by
  have hmem := Memory.wf_loadImage h.mem_wf image
  unfold State.hostLoad
  split
  · exact ⟨hmem, by simp, h.stack_le, Nat.zero_le _, h.snd_level, h.dly_level, rfl, nofun⟩
  · exact ⟨hmem, by simp, h.stack_le, Nat.zero_le _, h.snd_level, h.dly_level, rfl, nofun⟩

/-! #### Fault entry, and the core step -/

/-- Fault entry keeps the invariant when the record has the shape of its cause. -/
theorem State.Inv.raise {s : State} (h : s.Inv) {c : FatalCondition} {o : Option Word} {a : Word} {l : Option Word}
    (hw : FaultRecord.wf ⟨c, o, a, l⟩) : (s.raise c o a l).Inv :=
  ⟨h.mem_wf, h.pc_le, h.stack_le, h.lpc_le, h.snd_level, h.dly_level, rfl, fun _ hf => Option.some.inj hf ▸ hw⟩

/-- A running state holds no record. -/
theorem State.Inv.fault_eq_none {s : State} (h : s.Inv) (hr : s.runState = .running) : s.fault = none := by
  simpa [hr] using h.fault_iff

theorem Fetches.pc_fetched {s : State} (h : Fetches s) (rnd : Byte) :
    (s.fetched rnd).pc.toNat = s.pc.toNat + 2 := by
  obtain ⟨-, -, hp⟩ := h
  rw [State.fetched_pc, BitVec.toNat_add]
  exact Nat.mod_eq_of_lt (by simp; omega)

/-- Fetching from a fetchable address moves LPC there and PC past it. -/
theorem State.Inv.fetched {s : State} (h : s.Inv) (hs : Fetches s) (rnd : Byte) : (s.fetched rnd).Inv := by
  have hpc := hs.pc_fetched rnd
  obtain ⟨-, -, hp⟩ := hs
  exact ⟨h.mem_wf, by omega, h.stack_le, hp, h.snd_level, h.dly_level, h.fault_iff, h.fault_wf⟩

/-- The record of a word that was fetched: every cause but Runaway has this shape. -/
theorem FaultRecord.wf_fetched {c : FatalCondition} (hc : c ≠ .runaway) (w : Word) {a : Word} (ha : a.toNat ≤ 0xFFE) :
    FaultRecord.wf ⟨c, some w, a, none⟩ := by
  cases c with
  | runaway => exact absurd rfl hc
  | unknownOpcode | stackOverflow | stackUnderflow => exact ⟨rfl, rfl, ha⟩

theorem Raises.ne_runaway {i : Instr} {s : State} {c : FatalCondition} (h : Raises i s c) : c ≠ .runaway := by
  obtain ⟨-, -, rfl⟩ | ⟨-, -, rfl⟩ | ⟨-, -, rfl⟩ := h <;> nofun

/-- A completed instruction: the body keeps memory, stack and PC in bounds, the rest of the run control is as it was, and
the levels are driven last. -/
theorem State.Inv.gate {s u : State} (h : s.Inv) (hb : BodyInv u ∧ u.pc.toNat ≤ 0x10FE) (hq : Quiet s u)
    (tick : Bool) : (u.timerGate tick).driveLevels.Inv where
  mem_wf := hb.1.mem_wf
  pc_le := hb.2
  stack_le := hb.1.stack_le
  lpc_le := hq.lpc ▸ h.lpc_le
  snd_level := rfl
  dly_level := rfl
  fault_iff := (congrArg Option.isSome hq.fault).trans (hq.runState ▸ h.fault_iff)
  fault_wf := hq.fault ▸ h.fault_wf

theorem coreStep_inv {tick : Bool} {rnd : Byte} {s t : State} (hinv : s.Inv) (h : coreStep tick rnd s = .next t) :
    t.Inv := by
  obtain ⟨hr, ends⟩ := coreStep_cases h
  cases ends with
  | stopped hf ht =>
    subst ht
    have hnone : s.fault.isSome = false := by rw [hinv.fault_eq_none hr]; rfl
    exact ⟨hinv.mem_wf, hinv.pc_le, hinv.stack_le, hinv.lpc_le, hinv.snd_level, hinv.dly_level, hnone, hinv.fault_wf⟩
  | runaway hf hp ht => subst ht; exact hinv.raise ⟨rfl, rfl, hp⟩
  | illegal hs e hd ht => subst ht; exact (hinv.fetched hs rnd).raise ⟨rfl, rfl, hs.2.2⟩
  | raised hs i c hd hc ht =>
    subst ht; exact (hinv.fetched hs rnd).raise (FaultRecord.wf_fetched hc.ne_runaway _ hs.2.2)
  | done hs i u hd hn hu hq ht =>
    subst ht
    have hpc := hs.pc_fetched rnd
    have hle := hs.2.2
    exact (hinv.fetched hs rnd).gate (body_inv hu ⟨hinv.mem_wf, hinv.stack_le⟩ (by omega) (by omega)) hq tick

/-! #### The obligations -/

/-- Settles O18. -/
theorem resetSatisfiesInvariant : Obligations.ResetSatisfiesInvariant := ⟨State.inv_reset, State.inv_hostReset⟩

/-- Settles O19, move by move. -/
theorem everyStepKeepsInvariant : Obligations.EveryStepKeepsInvariant := by
  intro s t hinv h
  cases step_cases h with
  | invoke tick rnd s0 hi ht => exact coreStep_inv (hi.eq ▸ hinv.withQueue _ _) ht
  | setKey k p ms ha ht => subst ht; exact (hinv.withQueue ms _).setKey k p
  | stop ms ha ht => subst ht; exact (hinv.withQueue ms _).requestStop
  | reset ms ha ht => subst ht; exact State.inv_hostReset _
  | load b ms ha ht => subst ht; exact (hinv.withQueue ms _).hostLoad b

theorem State.Reachable.inv {s : State} (h : s.Reachable) : s.Inv := by
  induction h with
  | reset s => exact s.inv_hostReset
  | step _ hstep ih => exact everyStepKeepsInvariant _ _ ih hstep

theorem State.Inv.safe_iff {s : State} (h : s.Inv) : s.Safe ↔ s.fault = none := by
  rw [← Option.not_isSome_iff_eq_none, h.fault_iff, decide_eq_true_eq]

/-- Settles O20, by induction on the run. -/
theorem reachableStatesSatisfyInvariant : Obligations.ReachableStatesSatisfyInvariant := fun _ h =>
  ⟨h.inv, h.inv.safe_iff⟩

end Sys2Proof.Machine
end

section
/-! The family other, single instructions: arithmetic, jumps, calls, key skips and the index register (41_arithmetic.md,
42_control_flow.md, 44_keypad_timers.md, 45_index_memory.md). -/

namespace Sys2Proof.Machine

/-! #### Arithmetic and logic -/

/-- Settles O25: one register write, of the sum of the numbers mod 256. -/
theorem addImmAddsModulo256 : Obligations.AddImmAddsModulo256 := by
  intro strict x nn s
  obtain ⟨t, hexec, hreg, hframe⟩ := exec_of_setReg (rfl : exec (.addImm x nn) s = .next (s.setReg x (s.reg x + nn)))
  exact ⟨Laws.decode_patXK (t := 0x7) strict rfl rfl, t, hexec, hreg ▸ BitVec.toNat_add _ _, hframe⟩

/-- The shape of OR, AND and XOR (R104): VF counts as 0 among the operands. -/
theorem exec_of_logic {i : Instr} {s : State} {f : Byte → Byte → Byte} {x y : Reg}
    (h : exec i s = .next (s.logic f x y)) :
    ∃ t, exec i s = .next t ∧ t.reg x = f (if x = 15 then 0 else s.reg x) (if y = 15 then 0 else s.reg y) ∧
      (x ≠ 15 → t.reg 15 = 0) ∧ SameBut [.v x, .v 15] s t :=
  ⟨_, h, State.logic_reg s f x y, State.logic_vf s f x y, sameBut_logic s f x y⟩

/-- Settles O27: one shape, with the three combinations. -/
theorem logicClearsVfThenCombines : Obligations.LogicClearsVfThenCombines := by
  intro strict x y s a b
  refine ⟨Laws.decode_patXYN (t := 0x8) strict rfl rfl, Laws.decode_patXYN (t := 0x8) strict rfl rfl,
    Laws.decode_patXYN (t := 0x8) strict rfl rfl, ?_⟩
  rintro rfl rfl
  obtain ⟨t, ht, hor, hvt, hst⟩ := exec_of_logic (rfl : exec (.orReg x y) s = _)
  obtain ⟨u, hu, hand, hvu, hsu⟩ := exec_of_logic (rfl : exec (.andReg x y) s = _)
  obtain ⟨w, hw, hxor, hvw, hsw⟩ := exec_of_logic (rfl : exec (.xorReg x y) s = _)
  exact ⟨t, u, w, ht, hu, hw, hor, hand, hxor, fun hx => ⟨hvt hx, hvu hx, hvw hx⟩, hst, hsu, hsw⟩

/-- A masked byte has no bit outside the mask. -/
theorem and_and_not_self (r nn : Byte) : r &&& nn &&& ~~~nn = 0 := by
  rw [BitVec.and_assoc, BitVec.and_not_self]
  exact BitVec.and_zero

/-- Settles O33: one register write, of the input the step latched. -/
theorem rndMasksTheRandomInput : Obligations.RndMasksTheRandomInput := by
  intro strict x nn r s
  refine ⟨Laws.decode_patXK (t := 0xC) strict rfl rfl, ?_⟩
  rintro rfl
  obtain ⟨t, hexec, hreg, hframe⟩ := exec_of_setReg (rfl : exec (.rnd x nn) s = .next (s.setReg x (s.rndIn &&& nn)))
  exact ⟨t, hexec, hreg, hreg ▸ and_and_not_self s.rndIn nn, hframe⟩

/-! #### JP V0 and the nested calls -/

/-- Settles O36: the sum of a 12-bit and an 8-bit number is far below 65536. -/
theorem jpV0AddsV0Unmasked : Obligations.JpV0AddsV0Unmasked := by
  intro strict nnn s
  have hexec : exec (.jpV0 nnn) s = .next (s.setPC (addrWord nnn + byteWord (s.reg 0))) := rfl
  have hnnn := nnn.isLt
  have hv0 := (s.reg 0).isLt
  have hsum : (addrWord nnn + byteWord (s.reg 0)).toNat = nnn.toNat + (s.reg 0).toNat := by
    rw [BitVec.toNat_add, addrWord_toNat, byteWord_toNat, Nat.mod_eq_of_lt (by omega)]
  exact ⟨Laws.decode_patA (t := 0xB) strict rfl rfl, _, hexec, hsum, sameBut_setPC s _⟩

/-- A CALL with a free slot takes one and leaves the run control alone. -/
theorem exec_call_of_room {s : State} (h : s.sp.val < 16) (nnn : Addr) :
    ∃ u, exec (.call nnn) s = .next u ∧ u.sp.val = s.sp.val + 1 ∧ u.runState = s.runState ∧ u.fault = s.fault := by
  obtain ⟨u, hpush, -, hsp, hframe⟩ := State.push?_spec (k := ⟨s.sp.val, h⟩) rfl
  have hexec : exec (.call nnn) s = .next (u.setPC (addrWord nnn)) := by simp only [exec, execCall, hpush]
  exact ⟨_, hexec, hsp, hframe .runState (by simp), hframe .fault (by simp)⟩

theorem callChain_cons {s u : State} {nnn : Addr} (h : exec (.call nnn) s = .next u) (targets : List Addr) :
    callChain s (nnn :: targets) = callChain u targets := by
  change List.foldl _ (exec (.call nnn) s) targets = _
  rw [h, callChain]

/-- As many CALLs as slots remain fill the stack. -/
theorem callChain_fills {targets : List Addr} {s : State} (h : s.sp.val + targets.length = 16) :
    ∃ t, callChain s targets = .next t ∧ t.sp.val = 16 ∧ t.runState = s.runState ∧ t.fault = s.fault := by
  induction targets generalizing s with
  | nil => exact ⟨s, rfl, h, rfl, rfl⟩
  | cons nnn targets ih =>
    rw [List.length_cons] at h
    obtain ⟨u, hexec, hsp, hrun, hfault⟩ := exec_call_of_room (show s.sp.val < 16 by omega) nnn
    obtain ⟨t, hchain, hfull, hrun', hfault'⟩ := ih (s := u) (by omega)
    exact ⟨t, (callChain_cons hexec targets).trans hchain, hfull, hrun'.trans hrun, hfault'.trans hfault⟩

/-- Settles O39: the chain fills the stack, and a CALL on a full stack is fault entry alone. -/
theorem sixteenNestedCallsThenOverflow : Obligations.SixteenNestedCallsThenOverflow := by
  intro targets nnn s h
  obtain ⟨t, hchain, hfull, hrun, hfault⟩ := callChain_fills h
  have hover := exec_of_raises (s := t) (.inr (.inl ⟨⟨nnn, rfl⟩, hfull, rfl⟩))
  exact ⟨t, _, hchain, hfull, hrun, hfault, hover, rfl, ⟨_, rfl, rfl⟩, rfl, rfl, rfl⟩

/-! #### Key skips and ADD I -/

/-- Settles O45: the key that the low nibble of Vx selects decides both skips. -/
theorem keySkips : Obligations.KeySkips := by
  intro strict x k s
  refine ⟨Laws.decode_patXK (t := 0xE) strict rfl rfl, Laws.decode_patXK (t := 0xE) strict rfl rfl, fun hk => ?_⟩
  obtain rfl : k = keyOf (s.reg x) := Fin.ext (hk.trans (keyOf_val _).symm)
  refine ⟨_, _, rfl, rfl, s.skipIf_pc _, ?_, sameBut_skipIf s _, sameBut_skipIf s _⟩
  rw [State.skipIf_pc]
  cases s.keyDown (keyOf (s.reg x)) <;> rfl

/-- Settles O49: one write of I. -/
theorem addIAddsWithoutFlag : Obligations.AddIAddsWithoutFlag := by
  intro strict x s
  obtain ⟨t, hexec, hi, hframe⟩ := exec_of_setI (rfl : exec (.addI x) s = .next (s.setI (s.i + byteWord (s.reg x))))
  have hsum : t.i.toNat = (s.i.toNat + (s.reg x).toNat) % 65536 := by rw [hi, BitVec.toNat_add, byteWord_toNat]
  exact ⟨Laws.decode_patXK (t := 0xF) strict rfl rfl, t, hexec, hsum, hframe⟩

end Sys2Proof.Machine
end

section
/-! The family other, the stores and loads at I: LD B, LD [I] and LD Vx,[I] (45_index_memory.md R160, R164 to R166;
20_memory.md R41). -/

namespace Sys2Proof.Machine

/-! #### LD B -/

/-- Three bytes stored at I, I + 1, I + 2. -/
def State.storeThree (s : State) (b0 b1 b2 : Byte) : State :=
  ((s.memWrite (s.blockAddr 0) b0).memWrite (s.blockAddr 1) b1).memWrite (s.blockAddr 2) b2

theorem State.storeThree_read (s : State) (b0 b1 b2 : Byte) :
    (s.storeThree b0 b1 b2).mem.read (s.i.toNat % 4096) = b0 ∧
      (s.storeThree b0 b1 b2).mem.read ((s.i.toNat + 1) % 4096) = b1 ∧
      (s.storeThree b0 b1 b2).mem.read ((s.i.toNat + 2) % 4096) = b2 := by
  have h01 : s.i.toNat % 4096 ≠ (s.i.toNat + 1) % 4096 := by omega
  have h02 : s.i.toNat % 4096 ≠ (s.i.toNat + 2) % 4096 := by omega
  have h12 : (s.i.toNat + 1) % 4096 ≠ (s.i.toNat + 2) % 4096 := by omega
  simp only [State.storeThree, State.read_memWrite, State.blockAddr, Nat.add_zero, h01, h02, h12, if_true, if_false,
    and_self]

theorem sameBut_storeThree (s : State) (b0 b1 b2 : Byte) : SameBut (blockParts s 3) s (s.storeThree b0 b1 b2) :=
  ((sameBut_memWrite s _ b0).trans (sameBut_memWrite _ _ b1)).trans (sameBut_memWrite _ _ b2)

/-- The bytes at I, I + 1, I + 2 are the decimal digits of Vx, and nothing else is written. -/
theorem exec_ldB_spec (x : Reg) (s : State) :
    ∃ t, exec (.ldB x) s = .next t ∧
      (t.mem.read (s.i.toNat % 4096)).toNat = (s.reg x).toNat / 100 ∧
      (t.mem.read ((s.i.toNat + 1) % 4096)).toNat = (s.reg x).toNat / 10 % 10 ∧
      (t.mem.read ((s.i.toNat + 2) % 4096)).toNat = (s.reg x).toNat % 10 ∧
      SameBut (blockParts s 3) s t := by
  have hexec : exec (.ldB x) s = .next (s.storeThree (((doubleDabble (s.reg x)).extractLsb' 8 4).zeroExtend 8)
      (((doubleDabble (s.reg x)).extractLsb' 4 4).zeroExtend 8)
      (((doubleDabble (s.reg x)).extractLsb' 0 4).zeroExtend 8)) := rfl
  obtain ⟨hhundreds, htens, hones⟩ := s.storeThree_read (((doubleDabble (s.reg x)).extractLsb' 8 4).zeroExtend 8)
    (((doubleDabble (s.reg x)).extractLsb' 4 4).zeroExtend 8)
    (((doubleDabble (s.reg x)).extractLsb' 0 4).zeroExtend 8)
  refine ⟨_, hexec, ?_, ?_, ?_, sameBut_storeThree s _ _ _⟩
  · rw [hhundreds, dabble_hundreds]
  · rw [htens, dabble_tens]
  · rw [hones, dabble_ones]

/-- Settles O50. -/
theorem bcdStoresDecimalDigits : Obligations.BcdStoresDecimalDigits := fun strict x s =>
  ⟨Laws.decode_patXK (t := 0xF) strict rfl rfl, exec_ldB_spec x s⟩

/-! #### The block transfers -/

@[simp] theorem State.advanceI_mem (s : State) (n : Nat) : (s.advanceI n).mem = s.mem := by
  unfold State.advanceI; split <;> rfl

@[simp] theorem State.advanceI_reg (s : State) (n : Nat) (x : Reg) : (s.advanceI n).reg x = s.reg x := by
  unfold State.advanceI; split <;> rfl

theorem exec_ldMemVx_spec (x : Reg) (s : State) :
    ∃ t, exec (.ldMemVx x) s = .next t ∧
      (∀ k : Reg, k ≤ x → t.mem.read ((s.i.toNat + k.val) % 4096) = s.reg k) ∧
      t.i.toNat = (s.i.toNat + (if s.cfg.ldstIncrement then x.val + 1 else 0)) % 65536 ∧
      SameBut ([.i] ++ blockParts s (x.val + 1)) s t := by
  have hexec : exec (.ldMemVx x) s = .next ((s.storeBlock (x.val + 1)).advanceI (x.val + 1)) := rfl
  refine ⟨_, hexec, fun k hk => ?_, ?_, ?_⟩
  · rw [State.advanceI_mem, s.storeBlock_read x.isLt (Nat.lt_succ_of_le hk), Fin.ofNat_val_eq_self]
  · rw [State.advanceI_i, State.storeBlock_i, State.storeBlock_cfg]
  · exact ((sameBut_storeBlock s _).trans (sameBut_advanceI _ _)).mono (by simp)

theorem exec_ldVxMem_spec (x : Reg) (s : State) :
    ∃ t, exec (.ldVxMem x) s = .next t ∧
      (∀ k : Reg, k ≤ x → t.reg k = s.mem.read ((s.i.toNat + k.val) % 4096)) ∧
      t.i.toNat = (s.i.toNat + (if s.cfg.ldstIncrement then x.val + 1 else 0)) % 65536 ∧
      SameBut ([.i] ++ (List.range (x.val + 1)).map fun k => Part.v (Fin.ofNat 16 k)) s t := by
  have hexec : exec (.ldVxMem x) s = .next ((s.loadBlock (x.val + 1)).advanceI (x.val + 1)) := rfl
  refine ⟨_, hexec, fun k hk => ?_, ?_, ?_⟩
  · rw [State.advanceI_reg, ← s.loadBlock_reg x.isLt (Nat.lt_succ_of_le hk), Fin.ofNat_val_eq_self]
  · rw [State.advanceI_i, State.loadBlock_i, State.loadBlock_cfg]
  · exact ((sameBut_loadBlock s _).trans (sameBut_advanceI _ _)).mono (by simp)

/-- Settles O51. -/
theorem blockStoreWritesRegisters : Obligations.BlockStoreWritesRegisters := fun strict x s =>
  ⟨Laws.decode_patXK (t := 0xF) strict rfl rfl, exec_ldMemVx_spec x s⟩

/-- Settles O52. -/
theorem blockLoadReadsRegisters : Obligations.BlockLoadReadsRegisters := fun strict x s =>
  ⟨Laws.decode_patXK (t := 0xF) strict rfl rfl, exec_ldVxMem_spec x s⟩

/-! #### A fetch after a store -/

/-- At a fetchable address the two bytes of the word are neighbours of the block: the mask does not part them. -/
theorem State.fetch_toNat_of_masked (t : State) {a : Word} {n : Nat} (hle : a.toNat ≤ 0xFFE) (ha : a.toNat = n % 4096) :
    (t.fetch a).toNat = (t.mem.read (n % 4096)).toNat * 0x100 + (t.mem.read ((n + 1) % 4096)).toNat := by
  have hnext : a.toNat + 1 = (n + 1) % 4096 := by omega
  rw [t.fetch_toNat hle, hnext, ha]

/-- Settles O53, by what the two stores leave at neighbouring addresses. -/
theorem fetchSeesStoredBytes : Obligations.FetchSeesStoredBytes := by
  intro x s t a hle
  refine ⟨fun h j k hjk hk ha => ?_, fun h ha => ?_, fun h ha => ?_⟩
  · obtain ⟨_, hexec, hbytes, -, -⟩ := exec_ldMemVx_spec x s
    cases hexec.symm.trans h
    have hj : j ≤ x := Fin.le_def.2 (by rw [Fin.le_def] at hk; omega)
    rw [t.fetch_toNat_of_masked hle ha, hbytes j hj, Nat.add_assoc, ← hjk, hbytes k hk]
  · obtain ⟨_, hexec, hhundreds, htens, -, -⟩ := exec_ldB_spec x s
    cases hexec.symm.trans h
    rw [t.fetch_toNat_of_masked hle ha, hhundreds, htens]
  · obtain ⟨_, hexec, -, htens, hones, -⟩ := exec_ldB_spec x s
    cases hexec.symm.trans h
    rw [t.fetch_toNat_of_masked hle ha, htens, hones]

/-! #### Canonical memories -/

/-- Settles O60. -/
theorem canonicalMemoriesAreDeterminedByReads : Obligations.CanonicalMemoriesAreDeterminedByReads :=
  ⟨fun _ _ => Memory.eq_of_read_eq, fun s addr b hwf =>
    ⟨State.wf_memWrite hwf addr b, Memory.read_write_same s.mem (addr % memSize) b, sameBut_memWrite s addr b⟩⟩

end Sys2Proof.Machine
end

section
/-! The family other, DRW (43_display.md R142). -/

namespace Sys2Proof.Machine

/-! #### One draw -/

/-- The state a DRW leaves. -/
def State.drawn (s : State) (x y : Reg) (n : Nibble) : State :=
  let cv := s.drawSprite (spriteCol (s.reg x)) (spriteRow (s.reg y)) n.toNat
  (s.draw cv.fb).setReg vf (flagByte cv.coll)

theorem exec_drw (x y : Reg) (n : Nibble) (s : State) : exec (.drw x y n) s = .next (s.drawn x y n) := rfl

/-- The cells that a DRW of these operands flips. -/
abbrev State.Lit (s : State) (x y : Reg) (n : Nibble) (c : Nat) : Prop :=
  SpriteLights s ((s.reg x).toNat % 64) ((s.reg y).toNat % 32) n.toNat c

theorem flagByte_eq_one_iff (b : Bool) : flagByte b = 1 ↔ b = true := by cases b <;> decide

theorem flagByte_eq_zero_iff (b : Bool) : flagByte b = 0 ↔ ¬ b = true := by cases b <;> decide

section
variable (s : State) (x y : Reg) (n : Nibble)

theorem State.cell_drawn_of_lit {c : Nat} (h : s.Lit x y n c) : cell (s.drawn x y n).fb c = !cell s.fb c :=
  (s.drawSprite_toggles _ _ _).flips c h

theorem State.cell_drawn_of_not_lit {c : Nat} (h : ¬ s.Lit x y n c) : cell (s.drawn x y n).fb c = cell s.fb c :=
  (s.drawSprite_toggles _ _ _).keeps c h

theorem State.drawn_vf :
    (s.drawn x y n).reg 15 = flagByte (s.drawSprite (spriteCol (s.reg x)) (spriteRow (s.reg y)) n.toNat).coll :=
  State.setReg_reg_same _ _ _

theorem State.drawSprite_coll_iff :
    (s.drawSprite (spriteCol (s.reg x)) (spriteRow (s.reg y)) n.toNat).coll = true ↔
      ∃ c, s.Lit x y n c ∧ cell s.fb c = true := by
  rw [(s.drawSprite_toggles _ _ _).coll, or_iff_right Bool.false_ne_true]
  rfl

theorem State.drawn_vf_eq_one_iff : (s.drawn x y n).reg 15 = 1 ↔ ∃ c, s.Lit x y n c ∧ cell s.fb c = true := by
  rw [State.drawn_vf, flagByte_eq_one_iff, State.drawSprite_coll_iff]

theorem State.drawn_vf_eq_zero_iff : (s.drawn x y n).reg 15 = 0 ↔ ¬ ∃ c, s.Lit x y n c ∧ cell s.fb c = true := by
  rw [State.drawn_vf, flagByte_eq_zero_iff, State.drawSprite_coll_iff]

theorem State.drawn_reg {z : Reg} (h : z ≠ 15) : (s.drawn x y n).reg z = s.reg z := State.setReg_reg_ne _ vf z _ h

theorem sameBut_drawn : SameBut (allCells ++ [.v 15, .redraw]) s (s.drawn x y n) :=
  ((sameBut_draw s _).trans (sameBut_setReg _ vf _)).mono (by simp [vf])

end

/-- Settles O43. -/
theorem drwXorsTheClippedSprite : Obligations.DrwXorsTheClippedSprite := by
  intro strict x y n s
  refine ⟨Laws.decode_patXYN (t := 0xD) strict rfl rfl, ?_⟩
  rintro _ _ rfl rfl
  exact ⟨_, exec_drw x y n s, fun _ => s.cell_drawn_of_lit x y n, fun _ => s.cell_drawn_of_not_lit x y n,
    (s.drawn_vf_eq_one_iff x y n).2, (s.drawn_vf_eq_zero_iff x y n).2, rfl, sameBut_drawn s x y n⟩

/-! #### Two draws at one place -/

theorem Frame.ext_cell {f g : Frame} (h : ∀ c, cell f c = cell g c) : f = g :=
  BitVec.eq_of_getLsbD_eq fun c _ => h c

/-- A draw writes neither the sprite's bytes nor I, so with the origin in place it lights the same cells again. -/
theorem State.lit_drawn_iff (s : State) (x y : Reg) (n : Nibble)
    (hx : ((s.drawn x y n).reg x).toNat % 64 = (s.reg x).toNat % 64)
    (hy : ((s.drawn x y n).reg y).toNat % 32 = (s.reg y).toNat % 32) (c : Nat) :
    (s.drawn x y n).Lit x y n c ↔ s.Lit x y n c := by
  rw [State.Lit, hx, hy]
  rfl

/-- Settles O44: the second draw flips back what the first flipped, and collides where the first set a cell. -/
theorem drawingTwiceRestoresTheScreen : Obligations.DrawingTwiceRestoresTheScreen := by
  intro x y n s t u ht hu hxf hyf
  obtain rfl : t = s.drawn x y n := (Host.Outcome.next.inj ht).symm
  obtain rfl : u = (s.drawn x y n).drawn x y n := (Host.Outcome.next.inj hu).symm
  have hx : ((s.drawn x y n).reg x).toNat % 64 = (s.reg x).toNat % 64 := by
    by_cases h : x = 15
    · subst h; exact hxf rfl
    · rw [s.drawn_reg x y n h]
  have hy : ((s.drawn x y n).reg y).toNat % 32 = (s.reg y).toNat % 32 := by
    by_cases h : y = 15
    · subst h; exact hyf rfl
    · rw [s.drawn_reg x y n h]
  have hlit := s.lit_drawn_iff x y n hx hy
  refine ⟨Frame.ext_cell fun c => ?_, ?_⟩
  · by_cases h : s.Lit x y n c
    · exact (State.cell_drawn_of_lit _ x y n ((hlit c).2 h)).trans (by rw [s.cell_drawn_of_lit x y n h, Bool.not_not])
    · exact (State.cell_drawn_of_not_lit _ x y n (mt (hlit c).1 h)).trans (s.cell_drawn_of_not_lit x y n h)
  · refine (State.drawn_vf_eq_one_iff _ x y n).trans (exists_congr fun c => ?_)
    rw [hlit c]
    refine and_congr_right fun h => ?_
    rw [s.cell_drawn_of_lit x y n h, Bool.not_eq_true']

end Sys2Proof.Machine
end

section
/-! The family other, the whole instruction set: what each instruction can write (10_state.md R3 to R18). -/

namespace Sys2Proof.Machine

/-! #### Completion -/

/-- Settles O54: fault entry where the instruction's condition holds, and quiet run control elsewhere. -/
theorem everyInstructionCompletes : Obligations.EveryInstructionCompletes := by
  intro i s
  obtain ⟨t, ht⟩ := exec_next i s
  refine ⟨t, ht, ?_⟩
  rcases exec_cases ht with ⟨c, hc, rfl⟩ | ⟨-, hq⟩
  · refine .inr ⟨rfl, ?_⟩
    obtain ⟨hi, hpolicy, -⟩ | ⟨hi, hfull, -⟩ | ⟨hi, hempty, -⟩ := hc
    · exact .inl ⟨hi, hpolicy⟩
    · exact .inr (.inl ⟨hi, s.sp_eq_16_iff.2 hfull⟩)
    · exact .inr (.inr ⟨hi, Fin.ext hempty⟩)
  · exact .inl ⟨hq.runState, hq.fault⟩

/-! #### The parts an instruction writes -/

/-- The parts that fault entry writes (60_exceptions.md R190). -/
def faultParts : List Part := [.fault, .runState, .redraw]

/-- I, where a block transfer advances it (00_scope.md R7 LDST_I_INCREMENT). -/
def advanceParts (s : State) : List Part := if s.cfg.ldstIncrement then [.i] else []

/-- The parts an instruction can write in a state. -/
def writtenParts (i : Instr) (s : State) : List Part :=
  match i with
  | .sys _ => faultParts
  | .call _ => (List.finRange 16).map Part.stack ++ [.sp, .pc] ++ faultParts
  | .ret => [.sp, .pc] ++ faultParts
  | .cls => allCells ++ [.redraw]
  | .drw _ _ _ => allCells ++ [.v 15, .redraw]
  | .jp _ | .jpV0 _ | .seImm _ _ | .sneImm _ _ | .seReg _ _ | .sneReg _ _ | .skp _ | .sknp _ => [.pc]
  | .ldImm x _ | .addImm x _ | .ldReg x _ | .rnd x _ | .ldVxDT x => [.v x]
  | .orReg x _ | .andReg x _ | .xorReg x _ | .addReg x _ | .sub x _ | .subn x _ | .shr x _ | .shl x _ => [.v x, .v 15]
  | .ldVxK x => [.v x, .pc]
  | .ldI _ | .addI _ | .ldF _ => [.i]
  | .ldDTVx _ => [.dt]
  | .ldSTVx _ => [.st]
  | .ldB _ => blockParts s 3
  | .ldMemVx x => blockParts s (x.val + 1) ++ advanceParts s
  | .ldVxMem x => (List.range (x.val + 1)).map (fun k => Part.v (Fin.ofNat 16 k)) ++ advanceParts s

theorem sameBut_push? {s t : State} (h : s.push? = some t) :
    SameBut ((List.finRange 16).map Part.stack ++ [.sp]) s t := by
  obtain ⟨_, rfl⟩ := State.push?_eq_some h
  intro p hp
  cases p with
  | stack | sp => simp at hp
  | _ => rfl

theorem sameBut_pop? {s t : State} (h : s.pop? = some t) : SameBut [.sp, .pc] s t := by
  obtain ⟨_, rfl⟩ := State.pop?_eq_some h
  intro p hp
  cases p with
  | sp | pc => simp at hp
  | _ => rfl

theorem sameBut_advanceParts (s : State) (n : Nat) : SameBut (advanceParts s) s (s.advanceI n) := by
  unfold advanceParts State.advanceI
  split
  · exact sameBut_setI s _
  · exact SameBut.refl _ s

/-- An instruction changes no part but those it writes. -/
theorem exec_frame {i : Instr} {s t : State} (h : exec i s = .next t) : SameBut (writtenParts i s) s t := by
  cases i with
  | sys nnn =>
    simp only [exec, execSys] at h
    split at h <;> cases h
    · exact SameBut.refl _ s
    · exact sameBut_raise s _ _ _ _
  | call nnn =>
    simp only [exec, execCall] at h
    split at h <;> cases h
    · rename_i hpush
      exact ((sameBut_push? hpush).trans (sameBut_setPC _ _)).mono (by simp [writtenParts])
    · exact (sameBut_raise s _ _ _ _).mono (by simp [writtenParts, faultParts])
  | ret =>
    simp only [exec, execRet] at h
    split at h <;> cases h
    · rename_i hpop
      exact (sameBut_pop? hpop).mono (by simp [writtenParts])
    · exact (sameBut_raise s _ _ _ _).mono (by simp [writtenParts, faultParts])
  | ldVxK x =>
    simp only [exec, execLdVxK] at h
    split at h <;> cases h
    · exact (sameBut_setReg s x _).mono (by simp [writtenParts])
    · exact (sameBut_setPC s _).mono (by simp [writtenParts])
  | cls => cases h; exact sameBut_draw s _
  | drw x y n => cases h; exact sameBut_drawn s x y n
  | jp | jpV0 => cases h; exact sameBut_setPC s _
  | seImm | sneImm | seReg | sneReg | skp | sknp => cases h; exact sameBut_skipIf s _
  | ldImm | addImm | ldReg | rnd | ldVxDT => cases h; exact sameBut_setReg s _ _
  | orReg | andReg | xorReg => cases h; exact sameBut_logic s _ _ _
  | addReg | sub | subn | shr | shl => cases h; exact sameBut_setResultFlag s _ _ _
  | ldI | addI | ldF => cases h; exact sameBut_setI s _
  | ldDTVx => cases h; exact sameBut_setDT s _
  | ldSTVx => cases h; exact sameBut_setST s _
  | ldB => cases h; exact sameBut_storeThree s _ _ _
  | ldMemVx x =>
    cases h
    have hadvance := sameBut_advanceParts (s.storeBlock (x.val + 1)) (x.val + 1)
    rw [advanceParts, State.storeBlock_cfg] at hadvance
    exact (sameBut_storeBlock s _).trans hadvance
  | ldVxMem x =>
    cases h
    have hadvance := sameBut_advanceParts (s.loadBlock (x.val + 1)) (x.val + 1)
    rw [advanceParts, State.loadBlock_cfg] at hadvance
    exact (sameBut_loadBlock s _).trans hadvance

theorem mem_writes_of_changed {i : Instr} {s t : State} {p : Part} (h : exec i s = .next t) (hp : ¬ p.same s t) :
    p ∈ writtenParts i s :=
  by_contra fun hw => hp (exec_frame h p hw)

/-! #### Which instructions write a part -/

section
variable {i : Instr} {s : State}

/-- The writers of VF: R12's table, the instructions with destination F, and the block load of all registers. -/
theorem vf_mem_writes (h : Part.v 15 ∈ writtenParts i s) :
    (∃ x y, i = .orReg x y ∨ i = .andReg x y ∨ i = .xorReg x y ∨ i = .addReg x y ∨ i = .sub x y ∨ i = .subn x y ∨
      i = .shr x y ∨ i = .shl x y) ∨
    (∃ x y n, i = .drw x y n) ∨
    (∃ nn, i = .ldImm 15 nn ∨ i = .addImm 15 nn ∨ i = .rnd 15 nn) ∨ (∃ y, i = .ldReg 15 y) ∨
    i = .ldVxDT 15 ∨ i = .ldVxK 15 ∨ i = .ldVxMem 15 := by
  cases i with
  | ldVxMem x =>
    obtain ⟨k, hk, hv⟩ : ∃ k < x.val + 1, (Fin.ofNat 16 k : Reg) = 15 := by
      simpa [writtenParts, advanceParts] using h
    have hx : x = 15 := by
      have := Fin.val_eq_of_eq hv
      simp only [Fin.val_ofNat] at this
      apply Fin.ext
      omega
    simp [hx]
  | _ => simp_all [writtenParts, faultParts, advanceParts, blockParts, allCells, eq_comm (a := (15 : Reg))]

/-- The writers of PC (10_state.md R14). -/
theorem pc_mem_writes (h : Part.pc ∈ writtenParts i s) :
    (∃ nnn, i = .jp nnn ∨ i = .jpV0 nnn ∨ i = .call nnn) ∨ i = .ret ∨
    ((∃ x nn, i = .seImm x nn ∨ i = .sneImm x nn) ∨ (∃ x y, i = .seReg x y ∨ i = .sneReg x y) ∨
      ∃ x, i = .skp x ∨ i = .sknp x) ∨
    ∃ x, i = .ldVxK x := by
  cases i <;> simp_all [writtenParts, faultParts, advanceParts, blockParts, allCells]

theorem fb_mem_writes {c : Nat} (h : Part.fb c ∈ writtenParts i s) : i = .cls ∨ ∃ x y n, i = .drw x y n := by
  cases i <;> simp_all [writtenParts, faultParts, advanceParts, blockParts]

theorem stack_mem_writes {k : Fin 16} (h : Part.stack k ∈ writtenParts i s) : ∃ nnn, i = .call nnn := by
  cases i <;> simp_all [writtenParts, faultParts, advanceParts, blockParts, allCells]

theorem sp_mem_writes (h : Part.sp ∈ writtenParts i s) : i = .ret ∨ ∃ nnn, i = .call nnn := by
  cases i <;> simp_all [writtenParts, faultParts, advanceParts, blockParts, allCells]

theorem dt_mem_writes (h : Part.dt ∈ writtenParts i s) : ∃ x, i = .ldDTVx x := by
  cases i <;> simp_all [writtenParts, faultParts, advanceParts, blockParts, allCells]

theorem st_mem_writes (h : Part.st ∈ writtenParts i s) : ∃ x, i = .ldSTVx x := by
  cases i <;> simp_all [writtenParts, faultParts, advanceParts, blockParts, allCells]

theorem i_mem_writes (h : Part.i ∈ writtenParts i s) :
    (∃ nnn, i = .ldI nnn) ∨ (∃ x, i = .addI x ∨ i = .ldF x) ∨
      (s.cfg.ldstIncrement = true ∧ ∃ x, i = .ldMemVx x ∨ i = .ldVxMem x) := by
  cases i <;> simp_all [writtenParts, faultParts, advanceParts, blockParts, allCells]

end

/-- Settles O55. -/
theorem vfWrittenOnlyByItsInstructions : Obligations.VfWrittenOnlyByItsInstructions := fun _ _ _ h hne =>
  vf_mem_writes (mem_writes_of_changed h hne)

theorem State.skipIf_pc_of_ne {s : State} {c : Bool} (h : (s.skipIf c).pc ≠ s.pc) : (s.skipIf c).pc = s.pc + 2 := by
  cases c with
  | false => exact absurd rfl h
  | true => rfl

/-- An LD Vx,K that moves PC found no key (R153). -/
theorem exec_ldVxK_pc {x : Reg} {s t : State} (h : exec (.ldVxK x) s = .next t) (hne : t.pc ≠ s.pc) :
    t.pc = s.pc - 2 ∧ ∀ k, s.keyDown k = false := by
  cases hk : s.firstKey with
  | none =>
    cases (exec_ldVxK_of_noKey x hk).symm.trans h
    exact ⟨rfl, State.firstKey_none.1 hk⟩
  | some k =>
    cases (exec_ldVxK_of_firstKey x hk).symm.trans h
    exact absurd rfl hne

/-- Settles O56: PC's writers, with the amount for the skips and the poll. -/
theorem pcWrittenOnlyByControlTransfer : Obligations.PcWrittenOnlyByControlTransfer := by
  intro i s t h hne
  rcases pc_mem_writes (mem_writes_of_changed (p := .pc) h hne) with hjump | hret | hskip | hpoll
  · exact .inl hjump
  · exact .inr (.inl hret)
  · refine .inr (.inr (.inl ⟨?_, hskip⟩))
    rcases hskip with ⟨x, nn, rfl | rfl⟩ | ⟨x, y, rfl | rfl⟩ | ⟨x, rfl | rfl⟩ <;>
      cases h <;> exact State.skipIf_pc_of_ne hne
  · obtain ⟨x, rfl⟩ := hpoll
    obtain ⟨hpc, hkeys⟩ := exec_ldVxK_pc h hne
    exact .inr (.inr (.inr ⟨hpc, hkeys, x, rfl⟩))

/-! #### Memory as data -/

theorem State.skipIf_mem (s : State) (c : Bool) : (s.skipIf c).mem = s.mem := by cases c <;> rfl

/-- Memory is the same data, byte list and all, unless the instruction stores. -/
theorem exec_mem_or_stores {i : Instr} {s t : State} (h : exec i s = .next t) :
    t.mem = s.mem ∨ ∃ x, i = .ldB x ∨ i = .ldMemVx x := by
  cases i with
  | ldB x => exact .inr ⟨x, .inl rfl⟩
  | ldMemVx x => exact .inr ⟨x, .inr rfl⟩
  | sys nnn =>
    simp only [exec, execSys] at h
    split at h <;> cases h <;> exact .inl rfl
  | call nnn =>
    simp only [exec, execCall] at h
    split at h <;> cases h
    · rename_i hpush
      obtain ⟨_, rfl⟩ := State.push?_eq_some hpush
      exact .inl rfl
    · exact .inl rfl
  | ret =>
    simp only [exec, execRet] at h
    split at h <;> cases h
    · rename_i hpop
      obtain ⟨_, rfl⟩ := State.pop?_eq_some hpop
      exact .inl rfl
    · exact .inl rfl
  | ldVxK x =>
    simp only [exec, execLdVxK] at h
    split at h <;> cases h <;> exact .inl rfl
  | seImm | sneImm | seReg | sneReg | skp | sknp => cases h; exact .inl (s.skipIf_mem _)
  | ldVxMem x => cases h; exact .inl (by rw [State.advanceI_mem, State.loadBlock_mem])
  | _ => cases h; exact .inl rfl

/-- The parts no instruction writes, raised or quiet. -/
theorem exec_keeps {i : Instr} {s t : State} (h : exec i s = .next t) :
    t.key = s.key ∧ t.runFlag = s.runFlag ∧ t.lpc = s.lpc ∧ t.snd = s.snd ∧ t.dly = s.dly ∧ t.rndIn = s.rndIn ∧
      t.cfg = s.cfg ∧ t.agenda = s.agenda ∧ t.drawCount = s.drawCount := by
  rcases exec_cases h with ⟨c, -, rfl⟩ | ⟨-, hq⟩
  · exact ⟨rfl, rfl, rfl, rfl, rfl, rfl, rfl, rfl, rfl⟩
  · exact ⟨hq.key, hq.runFlag, hq.lpc, hq.snd, hq.dly, hq.rndIn, hq.cfg, hq.agenda, hq.drawCount⟩

/-- Settles O57: a changed framebuffer has a changed cell, a changed stack a changed slot. -/
theorem stateWrittenOnlyByItsInstructions : Obligations.StateWrittenOnlyByItsInstructions := by
  intro i s t h
  refine ⟨(exec_mem_or_stores h).resolve_left, fun hfb => ?_, fun hstack => ?_,
    fun hsp => sp_mem_writes (mem_writes_of_changed h hsp), fun hdt => dt_mem_writes (mem_writes_of_changed h hdt),
    fun hst => st_mem_writes (mem_writes_of_changed h hst), fun hi => i_mem_writes (mem_writes_of_changed h hi),
    exec_keeps h⟩
  · obtain ⟨c, hc⟩ := not_forall.1 (mt Frame.ext_cell hfb)
    exact fb_mem_writes (mem_writes_of_changed (p := .fb c) h hc)
  · obtain ⟨k, hk⟩ : ∃ k : Fin 16, t.stack[k.val] ≠ s.stack[k.val] := by
      by_contra hsame
      exact hstack (Vector.ext fun k hk => not_not.1 fun hne => hsame ⟨⟨k, hk⟩, hne⟩)
    exact stack_mem_writes (mem_writes_of_changed (p := .stack k) h hk)

end Sys2Proof.Machine
end

section
/-! The family other, noninterference: LPC, RUNFLAG, ST, the random input and the keys reach only their readers
(10_state.md R6, R7, R18, R19, R23, R24, R30). -/

namespace Sys2Proof.Machine

/-- New values for the five elements that few instructions read; `none` leaves the old one. -/
structure Overlay where
  lpc     : Option Word := none
  runFlag : Option Bool := none
  st      : Option Byte := none
  rndIn   : Option Byte := none
  key     : Option (Vector Bool 16) := none

/-- The state with the new values. -/
def State.overlay (s : State) (o : Overlay) : State :=
  { s with
    lpc := o.lpc.getD s.lpc, runFlag := o.runFlag.getD s.runFlag, st := o.st.getD s.st,
    rndIn := o.rndIn.getD s.rndIn, key := o.key.getD s.key }

/-- The instruction neither reads nor writes what the overlay replaces. -/
structure Overlay.Hidden (o : Overlay) (i : Instr) : Prop where
  st    : o.st = none ∨ ∀ x, i ≠ .ldSTVx x
  rndIn : o.rndIn = none ∨ ∀ x nn, i ≠ .rnd x nn
  key   : o.key = none ∨ ∀ x, i ≠ .skp x ∧ i ≠ .sknp x ∧ i ≠ .ldVxK x

section
variable (s : State) (o : Overlay)

theorem State.overlay_cfg : (s.overlay o).cfg = s.cfg := rfl

theorem State.overlay_reg (x : Reg) : (s.overlay o).reg x = s.reg x := rfl

theorem State.overlay_skipIf (c : Bool) : (s.overlay o).skipIf c = (s.skipIf c).overlay o := by cases c <;> rfl

theorem State.overlay_push? : (s.overlay o).push? = s.push?.map (·.overlay o) := by
  by_cases h : s.sp.val < 16
  · rw [State.push?_of_lt h, State.push?_of_lt (s := s.overlay o) h]
    rfl
  · have hfull : s.sp.val = 16 := by omega
    rw [State.push?_eq_none_iff.2 hfull, (State.push?_eq_none_iff (s := s.overlay o)).2 hfull]
    rfl

theorem State.overlay_pop? : (s.overlay o).pop? = s.pop?.map (·.overlay o) := by
  by_cases h : 0 < s.sp.val
  · rw [State.pop?_of_pos h, State.pop?_of_pos (s := s.overlay o) h]
    rfl
  · have hempty : s.sp.val = 0 := by omega
    rw [State.pop?_eq_none_iff.2 hempty, (State.pop?_eq_none_iff (s := s.overlay o)).2 hempty]
    rfl

theorem State.overlay_storeBlock (n : Nat) : (s.overlay o).storeBlock n = (s.storeBlock n).overlay o := by
  induction n with
  | zero => rfl
  | succ n ih => rw [State.storeBlock, ih]; rfl

theorem State.overlay_loadBlock (n : Nat) : (s.overlay o).loadBlock n = (s.loadBlock n).overlay o := by
  induction n with
  | zero => rfl
  | succ n ih => rw [State.loadBlock, ih]; rfl

theorem State.overlay_advanceI (n : Nat) : (s.overlay o).advanceI n = (s.advanceI n).overlay o := by
  cases h : s.cfg.ldstIncrement with
  | false => simp [State.advanceI, State.overlay_cfg, h]
  | true => simp [State.advanceI, State.overlay_cfg, h]; rfl

variable {o}

theorem State.overlay_rndIn (h : o.rndIn = none) : (s.overlay o).rndIn = s.rndIn := by rw [State.overlay, h]; rfl

theorem State.overlay_keyDown (h : o.key = none) (k : Key) : (s.overlay o).keyDown k = s.keyDown k := by
  rw [State.keyDown, State.overlay, h]; rfl

theorem State.overlay_firstKey (h : o.key = none) : (s.overlay o).firstKey = s.firstKey := by
  simp only [State.firstKey, s.overlay_keyDown h]

theorem State.overlay_setST (h : o.st = none) (b : Byte) : (s.overlay o).setST b = (s.setST b).overlay o := by
  rw [State.overlay, State.overlay, h]; rfl

end

/-- An instruction commutes with an overlay of what it neither reads nor writes. -/
theorem exec_overlay {i : Instr} {s t : State} {o : Overlay} (ho : o.Hidden i) (h : exec i s = .next t) :
    exec i (s.overlay o) = .next (t.overlay o) := by
  cases i with
  | sys nnn =>
    cases hpolicy : s.cfg.sysPolicy <;> simp only [exec, execSys, State.overlay_cfg, hpolicy] at h ⊢ <;> cases h <;> rfl
  | call nnn =>
    cases hpush : s.push? <;>
      simp only [exec, execCall, State.overlay_push?, hpush, Option.map_none, Option.map_some] at h ⊢ <;> cases h <;> rfl
  | ret =>
    cases hpop : s.pop? <;>
      simp only [exec, execRet, State.overlay_pop?, hpop, Option.map_none, Option.map_some] at h ⊢ <;> cases h <;> rfl
  | ldVxK x =>
    have hkey := ho.key.resolve_right fun hne => (hne x).2.2 rfl
    cases hfirst : s.firstKey <;>
      simp only [exec, execLdVxK, s.overlay_firstKey hkey, hfirst] at h ⊢ <;> cases h <;> rfl
  | skp x =>
    have hkey := ho.key.resolve_right fun hne => (hne x).1 rfl
    cases h
    simp only [exec, execSkp, s.overlay_keyDown hkey, State.overlay_skipIf, State.overlay_reg]
  | sknp x =>
    have hkey := ho.key.resolve_right fun hne => (hne x).2.1 rfl
    cases h
    simp only [exec, execSknp, s.overlay_keyDown hkey, State.overlay_skipIf, State.overlay_reg]
  | rnd x nn =>
    have hrnd := ho.rndIn.resolve_right fun hne => hne x nn rfl
    cases h
    simp only [exec, execRnd, s.overlay_rndIn hrnd]
    rfl
  | ldSTVx x =>
    have hst := ho.st.resolve_right fun hne => hne x rfl
    cases h
    simp only [exec, execLdSTVx, s.overlay_setST hst, State.overlay_reg]
  | seImm | sneImm | seReg | sneReg => cases h; exact congrArg _ (s.overlay_skipIf o _)
  | ldMemVx x =>
    cases h
    simp only [exec, execLdMemVx, State.overlay_storeBlock, State.overlay_advanceI]
  | ldVxMem x =>
    cases h
    simp only [exec, execLdVxMem, State.overlay_loadBlock, State.overlay_advanceI]
  | _ => cases h; rfl

/-- Settles O58: LPC and RUNFLAG are hidden from every instruction, ST from all but LD ST,Vx. -/
theorem noInstructionReadsLpcStOrRunFlag : Obligations.NoInstructionReadsLpcStOrRunFlag := by
  intro i s t l b f h
  have hcontrol : Overlay.Hidden { lpc := some l, runFlag := some f } i := ⟨.inl rfl, .inl rfl, .inl rfl⟩
  refine ⟨exec_overlay hcontrol h, fun hst => ?_⟩
  have htimer : Overlay.Hidden { st := some b } i := ⟨.inr hst, .inl rfl, .inl rfl⟩
  exact exec_overlay htimer h

/-- Settles O59: the random input is hidden from all but RND, the keys from all but their three readers. -/
theorem inputsReachOnlyTheirReaders : Obligations.InputsReachOnlyTheirReaders := by
  intro i s t r ks h
  refine ⟨fun hrnd => ?_, fun hkeys => ?_⟩
  · have hinput : Overlay.Hidden { rndIn := some r } i := ⟨.inl rfl, .inr hrnd, .inl rfl⟩
    exact exec_overlay hinput h
  · have hpad : Overlay.Hidden { key := some ks } i := ⟨.inl rfl, .inl rfl, .inr hkeys⟩
    exact exec_overlay hpad h

end Sys2Proof.Machine
end
